-- ==== Sys2Proof/Word.lean ====
section
/-! DEFINITION. The word type of the Synacor VM CORE (00_scope.md R13). -/

namespace Sys2Proof

/-- One word of storage: memory cells, registers, stack entries, input codes and the pc hold 16 bits (R13). -/
abbrev Word := BitVec 16

/-- The value of a literal operand, in [0, 32767] (R11, R52). -/
abbrev Literal := BitVec 15

/-- The number of a register, 0 to 7 (R10, R22). -/
abbrev Reg := Fin 8

end Sys2Proof
end

