-- ==== Sys2Proof/Config.lean ====
section
/-! DEFINITION. The implementation parameters of 00_scope.md section 3 and the configuration an instance is built with. -/

namespace Sys2Proof

/-- MEM_WORDS: memory holds the word addresses 0 to 32767 (R9). -/
abbrev memWords : Nat := 32768

/-- REG_BASE: the raw word 32768 + i names register i (R10). -/
abbrev regBase : Nat := 32768

/-- REG_COUNT (R10). -/
abbrev regCount : Nat := 8

/-- VALUE_MODULUS: every ALU result is reduced by it (R11, R103). -/
abbrev valueModulus : Nat := 32768

/-- The configuration of one CORE instance: fixed while it runs (R20). -/
structure Config where
  /-- STACK_CAPACITY: `none` is unbounded, `some n` a finite realisation (R14; D11 leaves it OPEN). -/
  stackCapacity : Option Nat
  deriving DecidableEq, Repr

/-- The source's value: an unbounded stack (R14). -/
def Config.source : Config := { stackCapacity := none }

end Sys2Proof
end

