-- ==== Sys2Proof/Syntax.lean ====
section
/-! DEFINITION. The syntax of the ISA: operands and the 22 instructions of 30_encoding.md R59. -/

namespace Sys2Proof

/-- A classified operand word (30_encoding.md R52): a literal, or a reference to a register. -/
inductive Operand where
  /-- A raw word in [0, 32767], read as its own value. -/
  | lit (v : Literal)
  /-- A raw word 32768 + i, naming register i. -/
  | reg (i : Reg)
  deriving DecidableEq, Repr

/-- One constructor per row of the Instruction Table (R59), operands in the order a, b, c (R18).
A destination operand (kind D, R55) is kept as it was classified: a literal there is a well-formed encoding
for the decoder and an invalid register target for the engine (R57, R62). -/
inductive Instr where
  | halt
  | set (a b : Operand)
  | push (a : Operand)
  | pop (a : Operand)
  | eq (a b c : Operand)
  | gt (a b c : Operand)
  | jmp (a : Operand)
  | jt (a b : Operand)
  | jf (a b : Operand)
  | add (a b c : Operand)
  | mult (a b c : Operand)
  | mod (a b c : Operand)
  | and (a b c : Operand)
  | or (a b c : Operand)
  | not (a b : Operand)
  | rmem (a b : Operand)
  | wmem (a b : Operand)
  | call (a : Operand)
  | ret
  | out (a : Operand)
  /-- The instruction `in` of the table. -/
  | inp (a : Operand)
  | noop
  deriving DecidableEq, Repr

end Sys2Proof
end

