-- ==== Sys2Proof/WellFormed.lean ====
section
/-! DEFINITION. Which instructions are well-formed: the destination operand names a register (30_encoding.md R55, R57). -/

namespace Sys2Proof

/-- The operand names a register. -/
def Operand.isReg : Operand → Bool
  | .lit _ => false
  | .reg _ => true

/-- The destination operand (kind D) of an instruction, where the table gives it one (R59). -/
def Instr.destOperand : Instr → Option Operand
  | .halt => none
  | .set a _ => some a
  | .push _ => none
  | .pop a => some a
  | .eq a _ _ => some a
  | .gt a _ _ => some a
  | .jmp _ => none
  | .jt _ _ => none
  | .jf _ _ => none
  | .add a _ _ => some a
  | .mult a _ _ => some a
  | .mod a _ _ => some a
  | .and a _ _ => some a
  | .or a _ _ => some a
  | .not a _ => some a
  | .rmem a _ => some a
  | .wmem _ _ => none
  | .call _ => none
  | .ret => none
  | .out _ => none
  | .inp a => some a
  | .noop => none

/-- A statement of the assembler's syntax and a valid register target for the engine (R57, R65).
An ill-formed instruction is one whose step is INVALID_REGISTER_TARGET (R79). -/
def Instr.wellFormed (i : Instr) : Bool :=
  match i.destOperand with
  | none => true
  | some a => a.isReg

end Sys2Proof
end

