-- ==== Sys2Proof/Decode.lean ====
section
/-! DEFINITION. Operand classification, the Instruction Table, the decoder and the encoder (30_encoding.md). -/

namespace Sys2Proof

/-- `classify` (R52): a literal, a register reference, or `none` for an illegal operand word. -/
def classify (w : Word) : Option Operand :=
  if h : w.toNat < regBase then some (.lit (w.setWidth 15))
  else if h' : w.toNat < regBase + regCount then
    some (.reg ⟨w.toNat - regBase, Nat.sub_lt_left_of_lt_add (Nat.le_of_not_lt h) h'⟩)
  else none

/-- `enc` (R65): the raw word of an operand. -/
def encodeOperand : Operand → Word
  | .lit v => v.setWidth 16
  | .reg i => BitVec.ofNat 16 (regBase + i.val)

/-- Why a word sequence is no instruction; each reason is the engine's fault of that name. -/
inductive DecodeError where
  /-- The opcode word is not in [0, 21] (R61, R76). -/
  | unknownOpcode (op : Word)
  /-- An operand word lies past the end of the supplied words (R68, R77). -/
  | operandFetch (op : Word)
  /-- The first operand word, in the order a, b, c, that is illegal (R62, R78). -/
  | illegalOperand (w : Word)
  deriving DecidableEq, Repr

/-- The kind of an operand position (R55). -/
inductive Kind where
  | dest
  | value
  deriving DecidableEq, Repr

/-- The four formats (R54), each with the instruction it builds from its operands. -/
inductive Format where
  | f0 (i : Instr)
  | f1 (mk : Operand → Instr)
  | f2 (mk : Operand → Operand → Instr)
  | f3 (mk : Operand → Operand → Operand → Instr)

/-- The number of operand words of a format (R54). -/
def Format.arity : Format → Nat
  | .f0 _ => 0
  | .f1 _ => 1
  | .f2 _ => 2
  | .f3 _ => 3

/-- One row of the Instruction Table; the arity is an explicit field (R59, R60). -/
structure Row where
  mnemonic : String
  arity : Nat
  kinds : List Kind
  format : Format

/-- The Instruction Table, indexed by opcode 0 to 21 (R59). -/
def instructionTable : List Row :=
  [ ⟨"halt", 0, [], .f0 .halt⟩,
    ⟨"set", 2, [.dest, .value], .f2 .set⟩,
    ⟨"push", 1, [.value], .f1 .push⟩,
    ⟨"pop", 1, [.dest], .f1 .pop⟩,
    ⟨"eq", 3, [.dest, .value, .value], .f3 .eq⟩,
    ⟨"gt", 3, [.dest, .value, .value], .f3 .gt⟩,
    ⟨"jmp", 1, [.value], .f1 .jmp⟩,
    ⟨"jt", 2, [.value, .value], .f2 .jt⟩,
    ⟨"jf", 2, [.value, .value], .f2 .jf⟩,
    ⟨"add", 3, [.dest, .value, .value], .f3 .add⟩,
    ⟨"mult", 3, [.dest, .value, .value], .f3 .mult⟩ ] ++
  [ ⟨"mod", 3, [.dest, .value, .value], .f3 .mod⟩,
    ⟨"and", 3, [.dest, .value, .value], .f3 .and⟩,
    ⟨"or", 3, [.dest, .value, .value], .f3 .or⟩,
    ⟨"not", 2, [.dest, .value], .f2 .not⟩,
    ⟨"rmem", 2, [.dest, .value], .f2 .rmem⟩,
    ⟨"wmem", 2, [.value, .value], .f2 .wmem⟩,
    ⟨"call", 1, [.value], .f1 .call⟩,
    ⟨"ret", 0, [], .f0 .ret⟩,
    ⟨"out", 1, [.value], .f1 .out⟩,
    ⟨"in", 1, [.dest], .f1 .inp⟩,
    ⟨"noop", 0, [], .f0 .noop⟩ ]

/-- Classification of one operand word, failing by name (R52, R78). -/
def decodeOperand (w : Word) : Except DecodeError Operand :=
  match classify w with
  | some o => .ok o
  | none => .error (.illegalOperand w)

/-- The operands of an instruction whose opcode word was `op`, read from the words after it: first that they
are there (R77), then that each is legal, in order (R78). -/
def decodeOperands (op : Word) (f : Format) (ws : List Word) : Except DecodeError (Instr × List Word) :=
  match f, ws with
  | .f0 i, rest => .ok (i, rest)
  | .f1 mk, a :: rest => do
    let x ← decodeOperand a
    return (mk x, rest)
  | .f2 mk, a :: b :: rest => do
    let x ← decodeOperand a
    let y ← decodeOperand b
    return (mk x y, rest)
  | .f3 mk, a :: b :: c :: rest => do
    let x ← decodeOperand a
    let y ← decodeOperand b
    let z ← decodeOperand c
    return (mk x y z, rest)
  | _, _ => .error (.operandFetch op)

/-- The decoder: the opcode word and the words that follow it, to an instruction and the words left over.
The opcode word is looked up whole in the table, never classified (R58); every other word is unknown (R61). -/
def decode (op : Word) (ws : List Word) : Except DecodeError (Instr × List Word) :=
  match instructionTable[op.toNat]? with
  | none => .error (.unknownOpcode op)
  | some row => decodeOperands op row.format ws

/-- The decoder over one list of words: `none` where it refuses or there is no word. -/
def decodeWords : List Word → Option Instr
  | [] => none
  | op :: ws =>
    match decode op ws with
    | .ok (i, _) => some i
    | .error _ => none

/-- `k` consecutive words of a number, the first word its least significant 16 bits. -/
def wordsOfNat : Nat → Nat → List Word
  | 0, _ => []
  | k + 1, w => BitVec.ofNat 16 w :: wordsOfNat k (w / 65536)

/-- The words of an instruction given as the opcode table numbers its bits: bit 0 is the least significant bit
of the first word and a later word counts on from it; bits from `nbits` up are 0; four words are the longest
instruction (R54). -/
def tableWords (nbits w : Nat) : List Word := wordsOfNat 4 (w % 2 ^ nbits)

/-- What the decoder reads from the words `tableWords nbits w`. -/
def decodeTableWord (nbits w : Nat) : Option Instr := decodeWords (tableWords nbits w)

/-- The opcode of an instruction (R59). -/
def Instr.opcode : Instr → Nat
  | .halt => 0
  | .set _ _ => 1
  | .push _ => 2
  | .pop _ => 3
  | .eq _ _ _ => 4
  | .gt _ _ _ => 5
  | .jmp _ => 6
  | .jt _ _ => 7
  | .jf _ _ => 8
  | .add _ _ _ => 9
  | .mult _ _ _ => 10
  | .mod _ _ _ => 11
  | .and _ _ _ => 12
  | .or _ _ _ => 13
  | .not _ _ => 14
  | .rmem _ _ => 15
  | .wmem _ _ => 16
  | .call _ => 17
  | .ret => 18
  | .out _ => 19
  | .inp _ => 20
  | .noop => 21

/-- The operands of an instruction, in the order a, b, c. -/
def Instr.operands : Instr → List Operand
  | .halt => []
  | .set a b => [a, b]
  | .push a => [a]
  | .pop a => [a]
  | .eq a b c => [a, b, c]
  | .gt a b c => [a, b, c]
  | .jmp a => [a]
  | .jt a b => [a, b]
  | .jf a b => [a, b]
  | .add a b c => [a, b, c]
  | .mult a b c => [a, b, c]
  | .mod a b c => [a, b, c]
  | .and a b c => [a, b, c]
  | .or a b c => [a, b, c]
  | .not a b => [a, b]
  | .rmem a b => [a, b]
  | .wmem a b => [a, b]
  | .call a => [a]
  | .ret => []
  | .out a => [a]
  | .inp a => [a]
  | .noop => []

/-- The number of words of an instruction, `1 + arity` (R53). -/
def Instr.length (i : Instr) : Nat := 1 + i.operands.length

/-- The words of an instruction: the opcode word, then its operand words in order (R53, R65). -/
def encode (i : Instr) : List Word := BitVec.ofNat 16 i.opcode :: i.operands.map encodeOperand

end Sys2Proof
end

