-- ==== Sys2Proof/Machine/State.lean ====
section
/-! DEFINITION. The state of one CORE instance (10_state.md R19), as plain data, and its reset value (R36). -/

namespace Sys2Proof.Machine

/-- The run status (10_state.md R32). -/
inductive Status where
  /-- 0: the next step executes an instruction. -/
  | running
  /-- 1: an `in` found the input queue empty and has not executed. -/
  | waitingInput
  /-- 2: a `halt` executed. -/
  | haltedHalt
  /-- 3: a `ret` found the stack empty. -/
  | haltedRetEmpty
  /-- 4: the pc was at or past 32768 at fetch. -/
  | haltedRunoff
  /-- 5: a fatal error, its cause in the fault record. -/
  | faulted
  /-- 6: the host's stop request was taken. -/
  | stopped
  deriving DecidableEq, Repr

/-- The fatal error causes (60_exceptions.md R113). -/
inductive FaultCause where
  | unknownOpcode
  | operandFetchOutOfRange
  | illegalOperand
  | invalidRegisterTarget
  | stackUnderflow
  | stackOverflow
  | divideByZero
  | memoryAddressOutOfRange
  deriving DecidableEq, Repr

/-- The fault record (10_state.md R33): FAULT_CAUSE, where `none` is the code 0, FAULT_PC and FAULT_INFO. -/
structure FaultRecord where
  cause : Option FaultCause
  pc : Word
  info : Word
  deriving DecidableEq, Repr

/-- The fault record while no fault has occurred: all three fields 0 (R33). -/
def FaultRecord.clear : FaultRecord := { cause := none, pc := 0#16, info := 0#16 }

/-- The memory: word addresses with the words they hold, in strictly rising order of address; an address that is
not listed holds 0, the reset content the spec gives (20_memory.md R37, R39), and no listed word is 0.
The smallest addressable unit of this memory is the 16-bit word (R37, R41), so a cell is a word
(DESIGN CHOICE, log entry 5). -/
abbrev Memory := List (Nat × Word)

/-- The state of one CORE instance. -/
structure State where
  /-- Model's own: the configuration of the instance (R20), written by no step (DESIGN CHOICE, log entry 4). -/
  cfg : Config
  /-- The memory (R37). -/
  mem : Memory
  /-- The 8 general registers (R22). -/
  regs : Vector Word 8
  /-- The stack, bottom first: it grows and shrinks at the tail (R28). -/
  stack : List Word
  /-- The program counter (R25). -/
  pc : Word
  /-- The input queue, head first (R31). -/
  inq : List Word
  /-- The run status (R32). -/
  status : Status
  /-- The fault record (R33). -/
  fault : FaultRecord
  /-- Model's own: the values of the output events so far, oldest first (R20, R89; DESIGN CHOICE, log entry 3). -/
  output : List Word
  deriving DecidableEq, Repr

/-- Why a step stops without a next state. No instruction's meaning stops so: a fatal error of the CORE is a next
state whose status is FAULTED (R116; DEDUCED, log entries 1 and 2). -/
inductive Fault where
  /-- Raised by `step` while the status is WAITING_INPUT: no step is enabled until the host supplies input or
  stops the CORE (R74, R132). Safe: nothing is claimed of a step the spec does not enable. -/
  | waitingForInput
  /-- Raised by `step` in a terminal status: no step is enabled any more (R74, R84, R115). Safe for the same reason. -/
  | runEnded (st : Status)
  deriving DecidableEq, Repr

/-- Why the model does not accept an input (DESIGN CHOICE, log entry 15). -/
inductive Refusal where
  /-- An instruction without a meaning, by its mnemonic. Raised by no arm of `exec` of this model. Safe. -/
  | notModelled (mnemonic : String)
  /-- Raised by the image load: an image of more than 32768 words is not a valid launch (R39, D17). Safe. -/
  | imageTooLong
  /-- Raised by the input port: the host appends only while the CORE waits for input (R121). Safe. -/
  | inputNotRequested
  /-- Raised by the input port: the appended sequence is not empty (R121). Safe. -/
  | inputEmpty
  deriving DecidableEq, Repr

/-- The outcome of one step of this machine. -/
abbrev Result := Host.Outcome State Fault Refusal

/-- The machine right after reset with the empty image and the source's configuration (R36, R134). The fields `cfg` and
`output` are the model's own there (DESIGN CHOICE, log entries 3 and 4). -/
def State.reset : State :=
  { cfg := Config.source
    mem := []
    regs := Vector.replicate 8 0#16
    stack := []
    pc := 0#16
    inq := []
    status := .running
    fault := FaultRecord.clear
    output := [] }

end Sys2Proof.Machine
end

