-- ==== Sys2Proof/Machine/Ops.lean ====
section
/-! DEFINITION. The named operations over memory, registers, stack, queue, ports and status that the meanings are
written with (00_scope.md R16), and the raising of a fatal error as one shared operation (60_exceptions.md R116).
There is no return from an exception to stand beside it: no instruction resumes a faulted CORE (R119). -/

namespace Sys2Proof.Machine

/-! ### Memory (20_memory.md) -/

/-- The word at an address; an unlisted address holds 0 (R39). -/
def Memory.read (m : Memory) (a : Nat) : Word :=
  match m with
  | [] => 0#16
  | (k, v) :: rest => if k = a then v else Memory.read rest a

/-- Put a cell in its place in a list that holds no cell of that address. -/
def Memory.place (m : Memory) (a : Nat) (v : Word) : Memory :=
  match m with
  | [] => [(a, v)]
  | (k, w) :: rest => if a < k then (a, v) :: (k, w) :: rest else (k, w) :: Memory.place rest a v

/-- Write the word at an address. A written 0 is what an unlisted address holds, so its cell goes. -/
def Memory.write (m : Memory) (a : Nat) (v : Word) : Memory :=
  let rest := m.filter (fun c => c.1 != a)
  if v = 0#16 then rest else Memory.place rest a v

/-- The canonical form: addresses strictly rising and below 32768, and no listed word 0. -/
abbrev Memory.wf (m : Memory) : Prop :=
  m.Pairwise (fun c d => c.1 < d.1) ∧ ∀ c ∈ m, c.1 < memWords ∧ c.2 ≠ 0#16

/-- `MemRead(addr, 1)` (R16). -/
def State.readMem (s : State) (a : Nat) : Word := s.mem.read a

/-- `MemWrite(addr, 1, v)` (R16). -/
def State.writeMem (s : State) (a : Nat) (v : Word) : State := { s with mem := s.mem.write a v }

/-! ### Registers (10_state.md R22) -/

/-- `x[i]`: none of the registers is hard-wired (R22). -/
def State.readReg (s : State) (i : Reg) : Word := s.regs.get i

/-- `x[i] <- v` (R16). -/
def State.writeReg (s : State) (i : Reg) (v : Word) : State := { s with regs := s.regs.set i.val v i.isLt }

/-! ### Program counter (10_state.md R25, 40_execution_cycle.md R80) -/

/-- `pc <- target`: any value, with no alignment (R26). -/
def State.setPc (s : State) (target : Word) : State := { s with pc := target }

/-- The fall-through address of an instruction of `n` operand words: `pc + 1 + n` (R80). It wraps in 16 bits only
where no step runs an instruction (DESIGN CHOICE, log entry 8). -/
def State.nextPc (s : State) (n : Nat) : Word := s.pc + BitVec.ofNat 16 (1 + n)

/-- The default end of an action: `pc <- next` (R80). -/
def State.advance (s : State) (n : Nat) : State := s.setPc (s.nextPc n)

/-! ### Ends of a run (60_exceptions.md) -/

/-- The numeric code of a status for the status port (10_state.md R32). -/
def Status.code : Status → Nat
  | .running => 0
  | .waitingInput => 1
  | .haltedHalt => 2
  | .haltedRetEmpty => 3
  | .haltedRunoff => 4
  | .faulted => 5
  | .stopped => 6

/-- RUNNING and WAITING_INPUT are live; the other five are terminal (10_state.md R32). -/
def Status.isLive : Status → Bool
  | .running => true
  | .waitingInput => true
  | .haltedHalt => false
  | .haltedRetEmpty => false
  | .haltedRunoff => false
  | .faulted => false
  | .stopped => false

/-- The numeric FAULT_CAUSE code (60_exceptions.md R113). -/
def FaultCause.code : FaultCause → Nat
  | .unknownOpcode => 1
  | .operandFetchOutOfRange => 2
  | .illegalOperand => 3
  | .invalidRegisterTarget => 4
  | .stackUnderflow => 5
  | .stackOverflow => 6
  | .divideByZero => 7
  | .memoryAddressOutOfRange => 8

/-- `raise Fault(cause, info)`: the fatal error is taken, the record names the instruction at the pc, and nothing
else changes (R83, R116). -/
def State.raise (s : State) (cause : FaultCause) (info : Word) : State :=
  { s with status := .faulted, fault := { cause := some cause, pc := s.pc, info := info } }

/-- `Halt(reason)`: only the status (R83, R114). -/
def State.halt (s : State) (reason : Status) : State := { s with status := reason }

/-- The wait of an `in` with an empty input queue: only the status (R82, R83). -/
def State.waitInput (s : State) : State := { s with status := .waitingInput }

/-! ### Stack (10_state.md R28) -/

/-- A finite stack holds as many entries as STACK_CAPACITY (R93, R100); an unbounded one is never full. -/
def State.stackFull (s : State) : Bool :=
  match s.cfg.stackCapacity with
  | none => false
  | some n => s.stack.length == n

/-- `Push(v)`: append at the tail (R16). -/
def State.push (s : State) (v : Word) : State := { s with stack := s.stack ++ [v] }

/-- The top entry, at the tail; `none` on the empty stack. -/
def State.top (s : State) : Option Word := s.stack.getLast?

/-- The stack without its top entry: what `Pop()` leaves (R16). -/
def State.dropTop (s : State) : State := { s with stack := s.stack.dropLast }

/-! ### Output port and input queue -/

/-- `Emit(v)`: one output event, after the earlier ones (41_system_io.md R89). -/
def State.emit (s : State) (v : Word) : State := { s with output := s.output ++ [v] }

/-- The queue that `TakeInput()` leaves (R16). -/
def State.setInq (s : State) (q : List Word) : State := { s with inq := q }

end Sys2Proof.Machine
end

