-- ==== Sys2Proof/Machine/Operands.lean ====
section
/-! DEFINITION. The two operand kinds (30_encoding.md R55): a value read through `val`, and a destination register. -/

namespace Sys2Proof.Machine

/-- `val(w)` of a classified operand (R56): the literal itself, or the register's contents before the step (R81). -/
def State.val (s : State) (o : Operand) : Word :=
  match o with
  | .lit v => v.setWidth 16
  | .reg i => s.readReg i

/-- The destination check (40_execution_cycle.md R79): a literal destination is INVALID_REGISTER_TARGET, with the
operand word as FAULT_INFO; otherwise the action runs on the register the operand names. The check stands in
the meaning, not in the decoder, which is shared with the static decoder (R62; DEDUCED, log entry 9). -/
def withDest (a : Operand) (s : State) (action : Reg → Result) : Result :=
  match a with
  | .lit v => .next (s.raise .invalidRegisterTarget (v.setWidth 16))
  | .reg i => action i

/-- The common form of the instructions that write one register: `x[i] <- v; pc <- next`, for an instruction of `n`
operand words. -/
def writeDest (a : Operand) (n : Nat) (v : Word) (s : State) : Result :=
  withDest a s fun i => .next ((s.writeReg i v).advance n)

end Sys2Proof.Machine
end

