-- ==== Sys2Proof/Machine/Alu.lean ====
section
/-! DEFINITION. The ALU and its instructions add, mult, mod, and, or, not (45_alu.md). -/

namespace Sys2Proof.Machine

/-- The reduction of an exact natural result modulo 32768 (R103). -/
def reduce (n : Nat) : Word := BitVec.ofNat 16 (n % valueModulus)

/-- The exact sum, reduced (R104). -/
def aluAdd (x y : Word) : Word := reduce (x.toNat + y.toNat)

/-- The exact product, reduced (R105). -/
def aluMult (x y : Word) : Word := reduce (x.toNat * y.toNat)

/-- The unsigned remainder, reduced (R106). -/
def aluMod (x y : Word) : Word := reduce (x.toNat % y.toNat)

/-- Bitwise AND of the 16-bit values, reduced (R107). -/
def aluAnd (x y : Word) : Word := reduce (x.toNat &&& y.toNat)

/-- Bitwise OR of the 16-bit values, reduced (R108). -/
def aluOr (x y : Word) : Word := reduce (x.toNat ||| y.toNat)

/-- The 15-bit complement `32767 - (v mod 32768)` (R15, R109). -/
def aluNot (x : Word) : Word := BitVec.ofNat 16 (32767 - x.toNat % valueModulus)

/-- `add a b c` (R104). -/
def execAdd (a b c : Operand) (s : State) : Result := writeDest a 3 (aluAdd (s.val b) (s.val c)) s

/-- `mult a b c` (R105). -/
def execMult (a b c : Operand) (s : State) : Result := writeDest a 3 (aluMult (s.val b) (s.val c)) s

/-- `mod a b c`: DIVIDE_BY_ZERO with val(b) as FAULT_INFO when val(c) is 0 (R106). -/
def execMod (a b c : Operand) (s : State) : Result :=
  withDest a s fun i =>
    if s.val c = 0#16 then .next (s.raise .divideByZero (s.val b))
    else .next ((s.writeReg i (aluMod (s.val b) (s.val c))).advance 3)

/-- `and a b c` (R107). -/
def execAnd (a b c : Operand) (s : State) : Result := writeDest a 3 (aluAnd (s.val b) (s.val c)) s

/-- `or a b c` (R108). -/
def execOr (a b c : Operand) (s : State) : Result := writeDest a 3 (aluOr (s.val b) (s.val c)) s

/-- `not a b` (R109). -/
def execNot (a b : Operand) (s : State) : Result := writeDest a 2 (aluNot (s.val b)) s

end Sys2Proof.Machine
end

