-- ==== Sys2Proof/Machine/Flags.lean ====
section
/-! DEFINITION. The CORE has no status flags and no condition codes (10_state.md R27): what would be a flag is a
comparison result written to a register, or a word tested for zero. -/

namespace Sys2Proof.Machine

/-- The word a comparison writes: 1 or 0 (R27, R95, R96). -/
def truthWord (p : Bool) : Word := if p then 1#16 else 0#16

/-- The test of `jt` and `jf`: only the value 0 is false (R98, R99). -/
def isZero (v : Word) : Bool := v == 0#16

end Sys2Proof.Machine
end

