-- ==== Sys2Proof/Machine/Branch.lean ====
section
/-! DEFINITION. Control transfer: jmp, jt, jf, call, ret (44_branch.md). -/

namespace Sys2Proof.Machine

/-- `jmp a`: `pc <- val(a)` (R97). -/
def execJmp (a : Operand) (s : State) : Result := .next (s.setPc (s.val a))

/-- `jt a b`: to val(b) if val(a) is not 0, else to next (R98). -/
def execJt (a b : Operand) (s : State) : Result :=
  if isZero (s.val a) then .next (s.advance 2) else .next (s.setPc (s.val b))

/-- `jf a b`: to val(b) if val(a) is 0, else to next (R99). -/
def execJf (a b : Operand) (s : State) : Result :=
  if isZero (s.val a) then .next (s.setPc (s.val b)) else .next (s.advance 2)

/-- `call a`: STACK_OVERFLOW on a full finite stack, with the return address as FAULT_INFO; else
`Push(next); pc <- val(a)` (R100). -/
def execCall (a : Operand) (s : State) : Result :=
  if s.stackFull then .next (s.raise .stackOverflow (s.nextPc 1))
  else .next ((s.push (s.nextPc 1)).setPc (s.val a))

/-- `ret`: on the empty stack `pc <- next; Halt(HALTED_RET_EMPTY)`; else `pc <- Pop()` (R101). -/
def execRet (s : State) : Result :=
  match s.top with
  | none => .next ((s.advance 0).halt .haltedRetEmpty)
  | some v => .next (s.dropTop.setPc v)

end Sys2Proof.Machine
end

