-- ==== Sys2Proof/Machine/Compare.lean ====
section
/-! DEFINITION. The comparison instructions eq, gt (43_compare.md). -/

namespace Sys2Proof.Machine

/-- `eq a b c`: 1 if the 16-bit values are equal, else 0 (R95). -/
def execEq (a b c : Operand) (s : State) : Result := writeDest a 3 (truthWord (s.val b == s.val c)) s

/-- `gt a b c`: 1 if val(b) > val(c) as 16-bit naturals, else 0 (R96). -/
def execGt (a b c : Operand) (s : State) : Result :=
  writeDest a 3 (truthWord (decide ((s.val b).toNat > (s.val c).toNat))) s

end Sys2Proof.Machine
end

