-- ==== Sys2Proof/Machine/DataStack.lean ====
section
/-! DEFINITION. The register and stack instructions set, push, pop (42_data_stack.md). -/

namespace Sys2Proof.Machine

/-- `set a b`: `x[i] <- val(b); pc <- next`, with no reduction (R92). -/
def execSet (a b : Operand) (s : State) : Result := writeDest a 2 (s.val b) s

/-- `push a`: STACK_OVERFLOW on a full finite stack, with the value as FAULT_INFO; else `Push(val(a)); pc <- next`
(R93). -/
def execPush (a : Operand) (s : State) : Result :=
  if s.stackFull then .next (s.raise .stackOverflow (s.val a))
  else .next ((s.push (s.val a)).advance 1)

/-- `pop a`: STACK_UNDERFLOW on the empty stack; else `x[i] <- Pop(); pc <- next`, the entry unmodified (R94). -/
def execPop (a : Operand) (s : State) : Result :=
  withDest a s fun i =>
    match s.top with
    | none => .next (s.raise .stackUnderflow 0#16)
    | some v => .next ((s.dropTop.writeReg i v).advance 1)

end Sys2Proof.Machine
end

