-- ==== Sys2Proof/Machine/MemoryAccess.lean ====
section
/-! DEFINITION. The memory access instructions rmem, wmem (46_memory_access.md). -/

namespace Sys2Proof.Machine

/-- The range check of a data address (20_memory.md R44): at or above 32768 is MEMORY_ADDRESS_OUT_OF_RANGE with the
address as FAULT_INFO, and nothing is accessed. -/
def withAddr (addr : Word) (s : State) (action : Nat → Result) : Result :=
  if memWords ≤ addr.toNat then .next (s.raise .memoryAddressOutOfRange addr) else action addr.toNat

/-- `rmem a b`: `x[i] <- MemRead(val(b), 1); pc <- next`, the word unmodified (R111). -/
def execRmem (a b : Operand) (s : State) : Result :=
  withDest a s fun i =>
    withAddr (s.val b) s fun addr => .next ((s.writeReg i (s.readMem addr)).advance 2)

/-- `wmem a b`: `MemWrite(val(a), 1, val(b)); pc <- next` (R112). -/
def execWmem (a b : Operand) (s : State) : Result :=
  withAddr (s.val a) s fun addr => .next ((s.writeMem addr (s.val b)).advance 2)

end Sys2Proof.Machine
end

