-- ==== Sys2Proof/Machine/System.lean ====
section
/-! DEFINITION. The system and I/O instructions halt, out, in, noop (41_system_io.md). -/

namespace Sys2Proof.Machine

/-- `halt`: `pc <- next; Halt(HALTED_HALT)` (R88). -/
def execHalt (s : State) : Result := .next ((s.advance 0).halt .haltedHalt)

/-- `out a`: `Emit(val(a)); pc <- next`, the value unchecked (R89). -/
def execOut (a : Operand) (s : State) : Result := .next ((s.emit (s.val a)).advance 1)

/-- `in a`: with an empty queue the CORE waits and nothing else changes; otherwise the head of the queue goes to the
register unmodified (R90). The destination is checked before the queue is looked at. -/
def execIn (a : Operand) (s : State) : Result :=
  withDest a s fun i =>
    match s.inq with
    | [] => .next s.waitInput
    | c :: rest => .next (((s.setInq rest).writeReg i c).advance 1)

/-- `noop`: `pc <- next` (R91). -/
def execNoop (s : State) : Result := .next (s.advance 0)

end Sys2Proof.Machine
end

