-- ==== Sys2Proof/Machine/Fetch.lean ====
section
/-! DEFINITION. The part of a step before the action: whether a step is enabled, the runoff check, and the fetch
and decoding of one instruction (40_execution_cycle.md R74 to R78). -/

namespace Sys2Proof.Machine

/-- The words of memory from address `a` on, at most `k` of them, none past address 32767 (R77). -/
def wordsFrom (m : Memory) (a : Nat) : Nat → List Word
  | 0 => []
  | k + 1 => if a < memWords then m.read a :: wordsFrom m (a + 1) k else []

/-- The fatal error a decoding failure is in the engine (R76 to R78, R113). -/
def decodeCause : DecodeError → FaultCause
  | .unknownOpcode _ => .unknownOpcode
  | .operandFetch _ => .operandFetchOutOfRange
  | .illegalOperand _ => .illegalOperand

/-- The word the fault record holds for it as FAULT_INFO (R113). -/
def decodeInfo : DecodeError → Word
  | .unknownOpcode op => op
  | .operandFetch op => op
  | .illegalOperand w => w

/-- What decoding the words at the pc gives: the opcode word, and at most three words after it (R76 to R78). -/
def State.decodeAtPc (s : State) : Except DecodeError Instr :=
  match decode (s.readMem s.pc.toNat) (wordsFrom s.mem (s.pc.toNat + 1) 3) with
  | .ok (i, _) => .ok i
  | .error e => .error e

/-- What comes before the action of a step: the instruction to execute, or the outcome of the step where no action
runs. -/
inductive Fetched where
  | instr (i : Instr)
  | done (r : Result)

/-- The runoff check first, then the fetch and decoding; a decoding failure is a fatal error (R75 to R78, R117). -/
def fetchRunning (s : State) : Fetched :=
  if memWords ≤ s.pc.toNat then .done (.next (s.halt .haltedRunoff))
  else
    match s.decodeAtPc with
    | .ok i => .instr i
    | .error e => .done (.next (s.raise (decodeCause e) (decodeInfo e)))

/-- A step is enabled exactly when the status is RUNNING (R74); otherwise it stops by name (DEDUCED, log entry 1). -/
def fetch (s : State) : Fetched :=
  match s.status with
  | .running => fetchRunning s
  | .waitingInput => .done (.fault .waitingForInput)
  | .haltedHalt => .done (.fault (.runEnded .haltedHalt))
  | .haltedRetEmpty => .done (.fault (.runEnded .haltedRetEmpty))
  | .haltedRunoff => .done (.fault (.runEnded .haltedRunoff))
  | .faulted => .done (.fault (.runEnded .faulted))
  | .stopped => .done (.fault (.runEnded .stopped))

/-- Store words from an address upward; a word that would lie past address 32767 has no place. -/
def Memory.writeWords (m : Memory) (a : Nat) : List Word → Memory
  | [] => m
  | w :: ws => if a < memWords then Memory.writeWords (m.write a w) (a + 1) ws else m

end Sys2Proof.Machine
end

