-- ==== Sys2Proof/Machine/Step.lean ====
section
/-! DEFINITION. One fetch-decode-execute step (40_execution_cycle.md R74, R87). -/

namespace Sys2Proof.Machine

/-- One step: the checks of R74 to R78 in order, then the action of the decoded instruction. -/
def step (s : State) : Host.Outcome State Fault Refusal :=
  match fetch s with
  | .instr i => exec i s
  | .done r => r

/-- The state with the instruction of `tableWords nbits w` stored at the pc and the run enabled: it stands for the
image load, by which a program comes into memory (R39; DESIGN CHOICE, log entries 6 and 16). -/
def State.withFetchWord (s : State) (nbits w : Nat) : State :=
  { s with mem := s.mem.writeWords s.pc.toNat (tableWords nbits w), status := .running }

end Sys2Proof.Machine
end

