-- ==== Sys2Proof/Machine/Assembler.lean ====
section
/-! DEFINITION. The assembler's syntax (30_encoding.md R64, R65), over the characters of a text. -/

namespace Sys2Proof.Machine

/-- The parts of a text between the characters that satisfy `sep`. -/
def splitChars (sep : Char → Bool) : List Char → List (List Char)
  | [] => [[]]
  | c :: cs =>
    if sep c then [] :: splitChars sep cs
    else
      match splitChars sep cs with
      | [] => [[c]]
      | part :: parts => (c :: part) :: parts

/-- The words of a statement, separated by spaces (R64). -/
def tokens (cs : List Char) : List (List Char) := (splitChars (· == ' ') cs).filter (fun t => !t.isEmpty)

/-- A decimal number: one or more digits, leading zeros among them (R64; DESIGN CHOICE, log entry 11). -/
def parseNumber (cs : List Char) : Option Nat :=
  if !cs.isEmpty && cs.all Char.isDigit then some (cs.foldl (fun n c => 10 * n + (c.toNat - '0'.toNat)) 0)
  else none

/-- An operand: `r0` to `r7`, or a decimal literal in [0, 32767] (R64, R65). -/
def parseOperand (cs : List Char) : Option Operand :=
  match cs with
  | ['r', d] =>
    if h : d.isDigit ∧ d.toNat - '0'.toNat < regCount then some (.reg ⟨d.toNat - '0'.toNat, h.2⟩) else none
  | other =>
    match parseNumber other with
    | some n => if n < regBase then some (.lit (BitVec.ofNat 15 n)) else none
    | none => none

/-- The operands of a statement. -/
def parseOperands : List (List Char) → Option (List Operand)
  | [] => some []
  | t :: ts =>
    match parseOperand t, parseOperands ts with
    | some o, some os => some (o :: os)
    | _, _ => none

/-- The instruction of a table row with given operands; `none` where their count is not the arity (R65). -/
def buildInstr (f : Format) (ops : List Operand) : Option Instr :=
  match f, ops with
  | .f0 i, [] => some i
  | .f1 mk, [a] => some (mk a)
  | .f2 mk, [a, b] => some (mk a b)
  | .f3 mk, [a, b, c] => some (mk a b c)
  | _, _ => none

/-- A statement: a lower-case mnemonic and its operands in order; its destination operand is a register (R64, R65). -/
def parseStatement (ts : List (List Char)) : Option Instr :=
  match ts with
  | [] => none
  | name :: args =>
    match instructionTable.find? (fun row => row.mnemonic.toList == name), parseOperands args with
    | some row, some ops =>
      match buildInstr row.format ops with
      | some i => if i.wellFormed then some i else none
      | none => none
    | _, _ => none

/-- The statements of a text, separated by `;` or a new line (R64); a blank part is no statement
(DESIGN CHOICE, log entry 11). -/
def statements (text : List Char) : List (List (List Char)) :=
  ((splitChars (fun c => c == ';' || c == '\n') text).map tokens).filter (fun ts => !ts.isEmpty)

/-- The instructions of a text, or `none` where one of its statements is none of this syntax. -/
def parseProgram (text : List Char) : Option (List Instr) := (statements text).mapM parseStatement

/-- Assembling a text gives the words of its instructions in order (R65). -/
def assemble (text : List Char) : Option (List Word) :=
  (parseProgram text).map fun is => is.flatMap encode

end Sys2Proof.Machine
end

