-- ==== Sys2Proof/Machine/Disassembler.lean ====
section
/-! DEFINITION. The static decoder and the disassembly scan (30_encoding.md R66 to R73). It reads a memory image, has
no register state and changes nothing. -/

namespace Sys2Proof.Machine

/-- What stands at a position of an image: an instruction, or a word that is data. -/
inductive Item where
  | instr (i : Instr)
  | data (w : Word)
  deriving DecidableEq, Repr

/-- The length in words of an item: `1 + arity`, or 1 (R66). -/
def Item.length : Item → Nat
  | .instr i => i.length
  | .data _ => 1

/-- The words an item stands for. -/
def Item.words : Item → List Word
  | .instr i => encode i
  | .data w => [w]

/-- The item at the head of the words from a position on: DATA where the opcode is unknown (R67), an operand word lies
past the image (R68) or an operand word is illegal (R69); destination kinds are not checked (R70). -/
def itemAt (w : Word) (ws : List Word) : Item :=
  match decode w ws with
  | .ok (i, _) => .instr i
  | .error _ => .data w

/-- A rendered operand (R70). -/
inductive RenderedOperand where
  | lit (v : Literal)
  | reg (i : Reg)
  /-- The literal operand of `out`, with the character it prints. -/
  | litChar (v : Literal)
  deriving DecidableEq, Repr

/-- The abstract rendering of a position (R66). -/
inductive Rendered where
  | instr (name : String) (ops : List RenderedOperand)
  | data (w : Word)
  deriving DecidableEq, Repr

/-- NAME: the mnemonic upper-cased (R70). -/
def upperName : Instr → String
  | .halt => "HALT"
  | .set _ _ => "SET"
  | .push _ => "PUSH"
  | .pop _ => "POP"
  | .eq _ _ _ => "EQ"
  | .gt _ _ _ => "GT"
  | .jmp _ => "JMP"
  | .jt _ _ => "JT"
  | .jf _ _ => "JF"
  | .add _ _ _ => "ADD"
  | .mult _ _ _ => "MULT"
  | .mod _ _ _ => "MOD"
  | .and _ _ _ => "AND"
  | .or _ _ _ => "OR"
  | .not _ _ => "NOT"
  | .rmem _ _ => "RMEM"
  | .wmem _ _ => "WMEM"
  | .call _ => "CALL"
  | .ret => "RET"
  | .out _ => "OUT"
  | .inp _ => "IN"
  | .noop => "NOOP"

/-- An operand's rendering, but for the operand of `out` (R70). -/
def renderOperand : Operand → RenderedOperand
  | .lit v => .lit v
  | .reg i => .reg i

/-- The rendering of the operand of `out` (R70). -/
def renderOutOperand : Operand → RenderedOperand
  | .lit v => .litChar v
  | .reg i => .reg i

/-- The operands of an instruction in order, rendered; only `out` prints its literal as a character too (R70). -/
def renderOperands (i : Instr) : List RenderedOperand :=
  match i with
  | .out a => [renderOutOperand a]
  | other => other.operands.map renderOperand

/-- The abstract rendering of an item (R67, R70). -/
def Item.render : Item → Rendered
  | .instr i => .instr (upperName i) (renderOperands i)
  | .data w => .data w

/-- The item and its length at a position of an image; `none` where the position is outside it (R66 asks
`0 <= pos < L`). -/
def decodeItem (image : List Word) (pos : Nat) : Option (Item × Nat) :=
  match image.drop pos with
  | [] => none
  | w :: ws => some (itemAt w ws, (itemAt w ws).length)

/-- `decode(memory, pos) -> (rendered_instruction, length)` of the static decoder (R66). -/
def decodeStatic (image : List Word) (pos : Nat) : Option (Rendered × Nat) :=
  (decodeItem image pos).map fun p => (p.1.render, p.2)

/-- The scan from a position on, at most `fuel` lines (R72). -/
def scanFrom (image : List Word) : Nat → Nat → List (Nat × Item)
  | 0, _ => []
  | fuel + 1, pos =>
    match decodeItem image pos with
    | none => []
    | some (it, n) => (pos, it) :: scanFrom image fuel (pos + n)

/-- The scan of a whole image; every line takes at least one word, so it has at most as many lines as words. -/
def scan (image : List Word) : List (Nat × Item) := scanFrom image image.length 0

/-- Disassembly: the abstract lines `(pos, r)` (R72). -/
def disassemble (image : List Word) : List (Nat × Rendered) := (scan image).map fun l => (l.1, l.2.render)

/-- The parameter RENDER_TEXT (R72, I5): how a number and a literal that prints as a character are spelled. -/
structure RenderText where
  number : Nat → String
  litChar : Nat → String

/-- The text of a rendered operand; a register is spelled `r<i>` (R22, R70). -/
def RenderedOperand.text (p : RenderText) : RenderedOperand → String
  | .lit v => p.number v.toNat
  | .reg i => "r" ++ p.number i.val
  | .litChar v => p.litChar v.toNat

/-- The operands of a line, each after a space. -/
def operandsText (p : RenderText) : List RenderedOperand → String
  | [] => ""
  | [o] => o.text p
  | o :: rest => o.text p ++ " " ++ operandsText p rest

/-- The text of a line in the default spelling `<pos>, <NAME>, <op> <op> <op>` or `<pos>, DATA, <w>` (R72). -/
def lineText (p : RenderText) (l : Nat × Rendered) : String :=
  match l.2 with
  | .instr name [] => p.number l.1 ++ ", " ++ name
  | .instr name ops => p.number l.1 ++ ", " ++ name ++ ", " ++ operandsText p ops
  | .data w => p.number l.1 ++ ", DATA, " ++ p.number w.toNat

/-- The default spelling: decimal, and a printed character between quotes after its code (DESIGN CHOICE, log
entry 10). -/
def RenderText.default : RenderText :=
  { number := fun n => toString n
    litChar := fun n => toString n ++ " '" ++ String.singleton (Char.ofNat n) ++ "'" }

end Sys2Proof.Machine
end

