-- ==== Sys2Proof/Machine/Image.lean ====
section
/-! DEFINITION. The image load and reset (20_memory.md R39, R40; 70_reset_and_hazards.md R134 to R137). -/

namespace Sys2Proof.Machine

/-- The byte-to-word rule of the loader: little-endian pairs (R40; PRESUMED, log entry 12). An odd trailing byte is the loader's concern and
gives no word sequence at the CORE's level (I12). -/
def wordsOfBytes : List (BitVec 8) → Option (List Word)
  | [] => some []
  | [_] => none
  | lo :: hi :: rest => (wordsOfBytes rest).map (BitVec.ofNat 16 (lo.toNat + 256 * hi.toNat) :: ·)

/-- The memory that holds the words of an image from address `a` up, and 0 elsewhere (R39). -/
def Memory.ofWords (a : Nat) : List Word → Memory
  | [] => []
  | w :: ws => if w = 0#16 then Memory.ofWords (a + 1) ws else (a, w) :: Memory.ofWords (a + 1) ws

/-- Reset of an instance of configuration `cfg` with an image (R36, R134): every previous state is discarded and only
the parameters survive (R136). An image of more than 32768 words is no valid launch (R39); image words are not
checked. -/
def reset (cfg : Config) (image : List Word) : Result :=
  if memWords < image.length then .refused .imageTooLong
  else .next { State.reset with cfg := cfg, mem := Memory.ofWords 0 image }

end Sys2Proof.Machine
end

