-- ==== Sys2Proof/Machine/HostPort.lean ====
section
/-! DEFINITION. What the host does to a CORE between steps and what it sees of it: input supply, stop request, status
port, snapshot and restore (10_state.md R35, 60_exceptions.md R121 to R126). -/

namespace Sys2Proof.Machine

/-- Input supply (R121): only while the CORE waits, a non-empty sequence is appended at the tail of the queue and the
CORE is RUNNING again. -/
def supplyInput (codes : List Word) (s : State) : Result :=
  if s.status = .waitingInput then
    match codes with
    | [] => .refused .inputEmpty
    | c :: cs => .next { s.setInq (s.inq ++ c :: cs) with status := .running }
  else .refused .inputNotRequested

/-- Stop request (R124): a live CORE becomes STOPPED; a terminal one is not affected. -/
def requestStop (s : State) : State :=
  if s.status.isLive then { s with status := .stopped } else s

/-- The record of a snapshot (R125). -/
structure Snapshot where
  mem : Memory
  regs : Vector Word 8
  stack : List Word
  pc : Word
  inq : List Word
  deriving DecidableEq, Repr

/-- `snapshot()`: defined only for a STOPPED CORE (R125). -/
def snapshot (s : State) : Option Snapshot :=
  if s.status = .stopped then
    some { mem := s.mem, regs := s.regs, stack := s.stack, pc := s.pc, inq := s.inq }
  else none

/-- `restore(blob)`: a new instance of configuration `cfg` with the record's fields, RUNNING, with a zero fault record
(R126) and, being new, no output event yet (DESIGN CHOICE, log entry 14). -/
def restore (cfg : Config) (r : Snapshot) : State :=
  { cfg := cfg
    mem := r.mem
    regs := r.regs
    stack := r.stack
    pc := r.pc
    inq := r.inq
    status := .running
    fault := FaultRecord.clear
    output := [] }

/-- What the status port and the input-request indication show, at any time (R32, R33, R35). -/
structure StatusPort where
  status : Nat
  faultCause : Nat
  faultPc : Word
  faultInfo : Word
  inputRequest : Bool
  deriving DecidableEq, Repr

/-- The FAULT_CAUSE code of a record: 0 while no fault has occurred (R33). -/
def FaultRecord.causeCode (f : FaultRecord) : Nat :=
  match f.cause with
  | none => 0
  | some c => c.code

/-- Reading the status port: the request indication is high exactly while the status is WAITING_INPUT (R35). -/
def statusPort (s : State) : StatusPort :=
  { status := s.status.code
    faultCause := s.fault.causeCode
    faultPc := s.fault.pc
    faultInfo := s.fault.info
    inputRequest := decide (s.status = .waitingInput) }

/-- What can happen to a CORE instance: its own step, or a host action between two steps (R86, R117;
DESIGN CHOICE, log entry 7). -/
inductive Event where
  | step
  | supply (codes : List Word)
  | stop
  deriving DecidableEq, Repr

/-- One event of a run. -/
def event (e : Event) (s : State) : Result :=
  match e with
  | .step => step s
  | .supply codes => supplyInput codes s
  | .stop => .next (requestStop s)

/-- A run of the CORE together with its host: the events in order, up to the first that has no next state. -/
def runEvents : List Event → State → Result
  | [], s => .next s
  | e :: es, s =>
    match event e s with
    | .next t => runEvents es t
    | .fault r => .fault r
    | .refused r => .refused r

end Sys2Proof.Machine
end

