-- ==== Sys2Proof/Safety.lean ====
section
/-! DEFINITION. What a consistent state and a safe run are, in the terms the claims use. -/

namespace Sys2Proof

/-- The instructions whose only effect is on the register of operand `a`: all with a destination operand but `pop`
and `in` (10_state.md R23). -/
def Instr.writesRegisterOnly : Instr → Bool
  | .halt => false
  | .set _ _ => true
  | .push _ => false
  | .pop _ => false
  | .eq _ _ _ => true
  | .gt _ _ _ => true
  | .jmp _ => false
  | .jt _ _ => false
  | .jf _ _ => false
  | .add _ _ _ => true
  | .mult _ _ _ => true
  | .mod _ _ _ => true
  | .and _ _ _ => true
  | .or _ _ _ => true
  | .not _ _ => true
  | .rmem _ _ => true
  | .wmem _ _ => false
  | .call _ => false
  | .ret => false
  | .out _ => false
  | .inp _ => false
  | .noop => false

end Sys2Proof

namespace Sys2Proof.Machine

/-- The stack holds at most STACK_CAPACITY entries (00_scope.md R14). -/
abbrev State.stackFits (s : State) : Prop := ∀ n ∈ s.cfg.stackCapacity, s.stack.length ≤ n

/-- The fault record is 0 while no fault has occurred; once one has, it names a cause and the address the pc still
holds (10_state.md R33, 60_exceptions.md R116). -/
abbrev State.faultConsistent (s : State) : Prop :=
  if s.status = .faulted then s.fault.cause ≠ none ∧ s.fault.pc = s.pc else s.fault = FaultRecord.clear

/-- A CORE waits only at an `in` whose register target is valid, with an empty input queue (41_system_io.md R90,
60_exceptions.md R132). -/
abbrev State.waitConsistent (s : State) : Prop :=
  s.status = .waitingInput →
    s.inq = [] ∧ s.pc.toNat < memWords ∧ ∃ i : Reg, s.decodeAtPc.toOption = some (.inp (.reg i))

/-- Two of the clean halts keep their reason in the state: a runoff its pc, an empty-stack `ret` its empty stack
(40_execution_cycle.md R75, 44_branch.md R101). -/
abbrev State.haltConsistent (s : State) : Prop :=
  (s.status = .haltedRunoff → memWords ≤ s.pc.toNat) ∧ (s.status = .haltedRetEmpty → s.stack = [])

/-- What holds of every state a run reaches: the memory in its canonical form, the stack within its capacity, and the
fault record, the wait and the clean halts consistent with the status. -/
structure State.Inv (s : State) : Prop where
  memory : s.mem.wf
  stack : s.stackFits
  fault : s.faultConsistent
  wait : s.waitConsistent
  halt : s.haltConsistent

/-- A clean halt, which is no error (60_exceptions.md R114). -/
def Status.isCleanHalt : Status → Bool
  | .running => false
  | .waitingInput => false
  | .haltedHalt => true
  | .haltedRetEmpty => true
  | .haltedRunoff => true
  | .faulted => false
  | .stopped => false

/-- A run is safe so far while no fatal error has been taken (60_exceptions.md R115). -/
def State.safe (s : State) : Bool := s.status != .faulted

/-! ### Terms of the claims about a step -/

/-- A step is enabled and there is a word at the pc (40_execution_cycle.md R74, R75). -/
def State.fetches (s : State) : Prop := s.status = .running ∧ s.pc.toNat < memWords

/-- Operand word `k` of the instruction at the pc (40_execution_cycle.md R77). -/
def State.operandWord (s : State) (k : Nat) : Word := s.readMem (s.pc.toNat + k)

/-- The memory holds the given words from the pc on, all of them below address 32768, and a step is enabled. -/
def State.holds (s : State) (ws : List Word) : Prop :=
  s.fetches ∧ s.pc.toNat + ws.length ≤ memWords ∧ ∀ k (h : k < ws.length), s.readMem (s.pc.toNat + k) = ws[k]

/-- The state a fatal error leaves: the status, and the record of the cause, the address of the instruction and the
information word (60_exceptions.md R116). -/
def State.faultedBy (s : State) (cause : FaultCause) (info : Word) : State :=
  { s with status := .faulted, fault := { cause := some cause, pc := s.pc, info := info } }

/-- The step faults of opcode `op` with `n` operand words, other than the destination check: operand words past the
end of memory (R77), else the first illegal operand word (R78), each taken as R116 says. -/
def StepFaults (op : Word) (n : Nat) : Prop :=
  ∀ s : State, s.fetches → s.readMem s.pc.toNat = op →
    (memWords ≤ s.pc.toNat + n →
      step s = .next (s.faultedBy .operandFetchOutOfRange op)) ∧
    (s.pc.toNat + n < memWords → ∀ k, 1 ≤ k → k ≤ n →
      (∀ j, 1 ≤ j → j < k → (s.operandWord j).toNat ≤ 32775) →
      32775 < (s.operandWord k).toNat →
      step s = .next (s.faultedBy .illegalOperand (s.operandWord k)))

/-- The words `ws` are the encoding of `i`, and a step at a state whose memory holds them at the pc runs `i`. -/
def Encodes (i : Instr) (ws : List Word) : Prop :=
  encode i = ws ∧ ∀ s : State, s.holds ws → step s = exec i s

/-- A literal as the destination of the instruction `mk` builds is an invalid register target (R57, R79). -/
def RefusesLiteralTarget (mk : Operand → Instr) : Prop :=
  ∀ (v : Literal) (s : State), exec (mk (.lit v)) s = .next (s.faultedBy .invalidRegisterTarget (v.setWidth 16))

/-- The actions of a list of instructions, one after the other, up to the first without a next state. -/
def execSeq : List Instr → State → Result
  | [], s => .next s
  | i :: is, s =>
    match exec i s with
    | .next t => execSeq is t
    | .fault r => .fault r
    | .refused r => .refused r

end Sys2Proof.Machine
end

