-- ==== Sys2Proof/Certificates/Slice0/Obligations.lean ====
section
/-! DEFINITION. The statements for the provers, each from a numbered rule of spec/ or derived from its sections. -/

open Sys2Proof Sys2Proof.Machine

/-! ### The instructions: encoding, result and next state, faults (one rule each) -/

/-- R88 (41_system_io.md). -/
def Obligations.HaltEndsTheRunAtNext : Prop :=
  Encodes .halt [0#16] ∧
  ∀ s : State, exec .halt s = .next { s with pc := s.pc + 1#16, status := .haltedHalt }

/-- R92 (42_data_stack.md): the value is copied unmodified. -/
def Obligations.SetCopiesValue : Prop :=
  (∀ a b, Encodes (.set a b) [1#16, encodeOperand a, encodeOperand b]) ∧
  (∀ i b (s : State), exec (.set (.reg i) b) s = .next { s with regs := s.regs.set i (s.val b), pc := s.pc + 3#16 }) ∧
  (∀ b, RefusesLiteralTarget (.set · b)) ∧
  StepFaults 1#16 2

/-- R93 (42_data_stack.md): STACK_OVERFLOW only under a finite STACK_CAPACITY (the spec's decision D11); `push` takes
`val(a)` (D10). -/
def Obligations.PushAppendsValue : Prop :=
  (∀ a, Encodes (.push a) [2#16, encodeOperand a]) ∧
  (∀ a (s : State), (∀ n, s.cfg.stackCapacity = some n → s.stack.length ≠ n) →
    exec (.push a) s = .next { s with stack := s.stack ++ [s.val a], pc := s.pc + 2#16 }) ∧
  (∀ a (s : State), s.cfg.stackCapacity = some s.stack.length →
    exec (.push a) s = .next (s.faultedBy .stackOverflow (s.val a))) ∧
  StepFaults 2#16 1

/-- R94 (42_data_stack.md). -/
def Obligations.PopTakesTopOrUnderflows : Prop :=
  (∀ a, Encodes (.pop a) [3#16, encodeOperand a]) ∧
  (∀ i (s : State) q v, s.stack = q ++ [v] →
    exec (.pop (.reg i)) s = .next { s with stack := q, regs := s.regs.set i v, pc := s.pc + 2#16 }) ∧
  (∀ i (s : State), s.stack = [] → exec (.pop (.reg i)) s = .next (s.faultedBy .stackUnderflow 0#16)) ∧
  RefusesLiteralTarget .pop ∧
  StepFaults 3#16 1

/-- R95 (43_compare.md): 16-bit equality, no reduction. -/
def Obligations.EqWritesEquality : Prop :=
  (∀ a b c, Encodes (.eq a b c) [4#16, encodeOperand a, encodeOperand b, encodeOperand c]) ∧
  (∀ i b c (s : State), exec (.eq (.reg i) b c) s =
    .next { s with regs := s.regs.set i (if (s.val b).toNat = (s.val c).toNat then 1#16 else 0#16), pc := s.pc + 4#16 }) ∧
  (∀ b c, RefusesLiteralTarget (.eq · b c)) ∧
  StepFaults 4#16 3

/-- R96 (43_compare.md): unsigned and strict. -/
def Obligations.GtWritesStrictOrder : Prop :=
  (∀ a b c, Encodes (.gt a b c) [5#16, encodeOperand a, encodeOperand b, encodeOperand c]) ∧
  (∀ i b c (s : State), exec (.gt (.reg i) b c) s =
    .next { s with regs := s.regs.set i (if (s.val c).toNat < (s.val b).toNat then 1#16 else 0#16), pc := s.pc + 4#16 }) ∧
  (∀ b c, RefusesLiteralTarget (.gt · b c)) ∧
  StepFaults 5#16 3

/-- R97 (44_branch.md): a target at or past 32768 ends in the runoff halt at the next step. -/
def Obligations.JmpGoesToValue : Prop :=
  (∀ a, Encodes (.jmp a) [6#16, encodeOperand a]) ∧
  (∀ a (s : State), exec (.jmp a) s = .next { s with pc := s.val a }) ∧
  (∀ a (s : State), s.status = .running → 32768 ≤ (s.val a).toNat →
    step { s with pc := s.val a } = .next { s with pc := s.val a, status := .haltedRunoff }) ∧
  StepFaults 6#16 1

/-- R98 (44_branch.md). -/
def Obligations.JtJumpsOnNonZero : Prop :=
  (∀ a b, Encodes (.jt a b) [7#16, encodeOperand a, encodeOperand b]) ∧
  (∀ a b (s : State), exec (.jt a b) s =
    .next { s with pc := if (s.val a).toNat ≠ 0 then s.val b else s.pc + 3#16 }) ∧
  StepFaults 7#16 2

/-- R99 (44_branch.md). -/
def Obligations.JfJumpsOnZero : Prop :=
  (∀ a b, Encodes (.jf a b) [8#16, encodeOperand a, encodeOperand b]) ∧
  (∀ a b (s : State), exec (.jf a b) s =
    .next { s with pc := if (s.val a).toNat = 0 then s.val b else s.pc + 3#16 }) ∧
  StepFaults 8#16 2

/-- R104 (45_alu.md). -/
def Obligations.AddWritesSumMod32768 : Prop :=
  (∀ a b c, Encodes (.add a b c) [9#16, encodeOperand a, encodeOperand b, encodeOperand c]) ∧
  (∀ i b c (s : State), exec (.add (.reg i) b c) s =
    .next { s with
      regs := s.regs.set i (BitVec.ofNat 16 (((s.val b).toNat + (s.val c).toNat) % 32768)), pc := s.pc + 4#16 }) ∧
  (∀ b c, RefusesLiteralTarget (.add · b c)) ∧
  StepFaults 9#16 3

/-- R105 (45_alu.md). -/
def Obligations.MultWritesProductMod32768 : Prop :=
  (∀ a b c, Encodes (.mult a b c) [10#16, encodeOperand a, encodeOperand b, encodeOperand c]) ∧
  (∀ i b c (s : State), exec (.mult (.reg i) b c) s =
    .next { s with
      regs := s.regs.set i (BitVec.ofNat 16 (((s.val b).toNat * (s.val c).toNat) % 32768)), pc := s.pc + 4#16 }) ∧
  (∀ b c, RefusesLiteralTarget (.mult · b c)) ∧
  StepFaults 10#16 3

/-- R106 (45_alu.md): DIVIDE_BY_ZERO is the spec's decision D3. -/
def Obligations.ModWritesRemainderOrDividesByZero : Prop :=
  (∀ a b c, Encodes (.mod a b c) [11#16, encodeOperand a, encodeOperand b, encodeOperand c]) ∧
  (∀ i b c (s : State), (s.val c).toNat ≠ 0 → exec (.mod (.reg i) b c) s =
    .next { s with
      regs := s.regs.set i (BitVec.ofNat 16 (((s.val b).toNat % (s.val c).toNat) % 32768)), pc := s.pc + 4#16 }) ∧
  (∀ i b c (s : State), (s.val c).toNat = 0 →
    exec (.mod (.reg i) b c) s = .next (s.faultedBy .divideByZero (s.val b))) ∧
  (∀ b c, RefusesLiteralTarget (.mod · b c)) ∧
  StepFaults 11#16 3

/-- R107 (45_alu.md): the AND of the 16-bit values, bit 15 cleared by the reduction. -/
def Obligations.AndWritesConjunction : Prop :=
  (∀ a b c, Encodes (.and a b c) [12#16, encodeOperand a, encodeOperand b, encodeOperand c]) ∧
  (∀ i b c (s : State), exec (.and (.reg i) b c) s =
    .next { s with
      regs := s.regs.set i (BitVec.ofNat 16 (((s.val b).toNat &&& (s.val c).toNat) % 32768)), pc := s.pc + 4#16 }) ∧
  (∀ b c, RefusesLiteralTarget (.and · b c)) ∧
  StepFaults 12#16 3

/-- R108 (45_alu.md). -/
def Obligations.OrWritesDisjunction : Prop :=
  (∀ a b c, Encodes (.or a b c) [13#16, encodeOperand a, encodeOperand b, encodeOperand c]) ∧
  (∀ i b c (s : State), exec (.or (.reg i) b c) s =
    .next { s with
      regs := s.regs.set i (BitVec.ofNat 16 (((s.val b).toNat ||| (s.val c).toNat) % 32768)), pc := s.pc + 4#16 }) ∧
  (∀ b c, RefusesLiteralTarget (.or · b c)) ∧
  StepFaults 13#16 3

/-- R109 (45_alu.md): the two forms of the 15-bit complement are one. -/
def Obligations.NotWritesComplement : Prop :=
  (∀ a b, Encodes (.not a b) [14#16, encodeOperand a, encodeOperand b]) ∧
  (∀ i b (s : State), exec (.not (.reg i) b) s =
    .next { s with regs := s.regs.set i (~~~(s.val b) &&& 0x7FFF#16), pc := s.pc + 3#16 }) ∧
  (∀ v : Word, (~~~v &&& 0x7FFF#16).toNat = 32767 - v.toNat % 32768) ∧
  (∀ b, RefusesLiteralTarget (.not · b)) ∧
  StepFaults 14#16 2

/-- R111 (46_memory_access.md): the out-of-range fault is the spec's decision D4. -/
def Obligations.RmemReadsWordOrFaults : Prop :=
  (∀ a b, Encodes (.rmem a b) [15#16, encodeOperand a, encodeOperand b]) ∧
  (∀ i b (s : State), (s.val b).toNat < 32768 → exec (.rmem (.reg i) b) s =
    .next { s with regs := s.regs.set i (s.readMem (s.val b).toNat), pc := s.pc + 3#16 }) ∧
  (∀ i b (s : State), 32768 ≤ (s.val b).toNat →
    exec (.rmem (.reg i) b) s = .next (s.faultedBy .memoryAddressOutOfRange (s.val b))) ∧
  (∀ b, RefusesLiteralTarget (.rmem · b)) ∧
  StepFaults 15#16 2

/-- R112 (46_memory_access.md): the out-of-range fault is the spec's decision D4. -/
def Obligations.WmemWritesWordOrFaults : Prop :=
  (∀ a b, Encodes (.wmem a b) [16#16, encodeOperand a, encodeOperand b]) ∧
  (∀ a b (s : State), (s.val a).toNat < 32768 → ∃ m : Memory,
    exec (.wmem a b) s = .next { s with mem := m, pc := s.pc + 3#16 } ∧
    ∀ x, m.read x = if x = (s.val a).toNat then s.val b else s.mem.read x) ∧
  (∀ a b (s : State), 32768 ≤ (s.val a).toNat →
    exec (.wmem a b) s = .next (s.faultedBy .memoryAddressOutOfRange (s.val a))) ∧
  StepFaults 16#16 2

/-- R100 (44_branch.md): STACK_OVERFLOW only under a finite STACK_CAPACITY (the spec's decision D11). -/
def Obligations.CallPushesReturnAddress : Prop :=
  (∀ a, Encodes (.call a) [17#16, encodeOperand a]) ∧
  (∀ a (s : State), (∀ n, s.cfg.stackCapacity = some n → s.stack.length ≠ n) →
    exec (.call a) s = .next { s with stack := s.stack ++ [s.pc + 2#16], pc := s.val a }) ∧
  (∀ a (s : State), s.cfg.stackCapacity = some s.stack.length →
    exec (.call a) s = .next (s.faultedBy .stackOverflow (s.pc + 2#16))) ∧
  StepFaults 17#16 1

/-- R101 (44_branch.md): the empty stack is a clean halt, not a fault. -/
def Obligations.RetPopsPcOrHalts : Prop :=
  Encodes .ret [18#16] ∧
  (∀ (s : State) q v, s.stack = q ++ [v] → exec .ret s = .next { s with stack := q, pc := v }) ∧
  (∀ s : State, s.stack = [] → exec .ret s = .next { s with pc := s.pc + 1#16, status := .haltedRetEmpty })

/-- R89 (41_system_io.md): one event, the value unchecked. The field that shows it is the model's choice (log
entry 3). -/
def Obligations.OutEmitsValue : Prop :=
  (∀ a, Encodes (.out a) [19#16, encodeOperand a]) ∧
  (∀ a (s : State), exec (.out a) s = .next { s with output := s.output ++ [s.val a], pc := s.pc + 2#16 }) ∧
  StepFaults 19#16 1

/-- R90 (41_system_io.md): an `in` that finds the queue empty has not executed (the spec's decision D14). -/
def Obligations.InTakesInputOrWaits : Prop :=
  (∀ a, Encodes (.inp a) [20#16, encodeOperand a]) ∧
  (∀ i (s : State) c q, s.inq = c :: q →
    exec (.inp (.reg i)) s = .next { s with inq := q, regs := s.regs.set i c, pc := s.pc + 2#16 }) ∧
  (∀ i (s : State), s.inq = [] → exec (.inp (.reg i)) s = .next { s with status := .waitingInput }) ∧
  RefusesLiteralTarget .inp ∧
  StepFaults 20#16 1

/-- R91 (41_system_io.md): after a `noop` at the last address of memory, the next step is the runoff halt. -/
def Obligations.NoopOnlyAdvances : Prop :=
  Encodes .noop [21#16] ∧
  (∀ s : State, exec .noop s = .next { s with pc := s.pc + 1#16 }) ∧
  ∀ s : State, s.holds [21#16] → s.pc = 32767#16 →
    step s = .next { s with pc := 32768#16 } ∧
    step { s with pc := 32768#16 } = .next { s with pc := 32768#16, status := .haltedRunoff }

/-! ### Operands and encoding -/

/-- R52 (30_encoding.md). -/
def Obligations.ClassifyByRange : Prop :=
  ∀ w : Word,
    (w.toNat ≤ 32767 → ∃ v : Literal, classify w = some (.lit v) ∧ v.toNat = w.toNat) ∧
    (32768 ≤ w.toNat → w.toNat ≤ 32775 → ∃ i : Reg, classify w = some (.reg i) ∧ i.val = w.toNat - 32768) ∧
    (32776 ≤ w.toNat → classify w = none)

/-- R56 (30_encoding.md). -/
def Obligations.ValReadsLiteralOrRegister : Prop :=
  ∀ (s : State) (w : Word) (o : Operand), classify w = some o →
    (w.toNat ≤ 32767 → s.val o = w) ∧
    (∀ i : Reg, w.toNat = 32768 + i.val → s.val o = s.regs.get i)

/-- The encodings of R59 written out: a few instruction words, one per family, decode to what they stand for. -/
def Obligations.WrittenOutWordsDecode : Prop :=
  decodeWords [0#16] = some .halt ∧
  decodeWords [1#16, 32768#16, 5#16] = some (.set (.reg 0) (.lit 5#15)) ∧
  decodeWords [5#16, 32770#16, 32767#16, 32775#16] = some (.gt (.reg 2) (.lit 32767#15) (.reg 7)) ∧
  decodeWords [7#16, 32769#16, 3#16] = some (.jt (.reg 1) (.lit 3#15)) ∧
  decodeWords [9#16, 32768#16, 32769#16, 3#16] = some (.add (.reg 0) (.reg 1) (.lit 3#15)) ∧
  decodeWords [16#16, 100#16, 32768#16] = some (.wmem (.lit 100#15) (.reg 0)) ∧
  decodeWords [22#16] = none ∧
  decodeWords [19#16, 32776#16] = none

/-- R53, R58, R59: the decoder reads back every instruction, with every operand at every value, from its words. -/
def Obligations.DecodeOfEncode : Prop :=
  ∀ (i : Instr) (rest : List Word), ∃ op ws, encode i = op :: ws ∧ decode op (ws ++ rest) = .ok (i, rest)

/-- R53, R63: what the decoder accepts is the encoding of the instruction it gives, and the words after it are left. -/
def Obligations.EncodeOfDecode : Prop :=
  ∀ (op : Word) (ws : List Word) (i : Instr) (rest : List Word),
    decode op ws = .ok (i, rest) → encode i ++ rest = op :: ws

/-! ### The step -/

/-- R74: no step is enabled in WAITING_INPUT or in a terminal status; in RUNNING every step has a next state.
That a step not enabled answers a named fault of the model is log entry 1. -/
def Obligations.StepEnabledExactlyWhenRunning : Prop :=
  ∀ s : State, (∃ t, step s = .next t) ↔ s.status = .running

/-- R75. -/
def Obligations.RunoffIsACleanHalt : Prop :=
  ∀ s : State, s.status = .running → 32768 ≤ s.pc.toNat → step s = .next { s with status := .haltedRunoff }

/-- R61, R76: exactly the opcode words 22 to 65535 are unknown to the decoder, and fetching one is a fatal error. -/
def Obligations.UnknownOpcodeFaults : Prop :=
  (∀ (op : Word) (ws : List Word), decode op ws = .error (.unknownOpcode op) ↔ 22 ≤ op.toNat) ∧
  ∀ s : State, s.fetches → 21 < (s.readMem s.pc.toNat).toNat →
    step s = .next (s.faultedBy .unknownOpcode (s.readMem s.pc.toNat))

/-- R77, R78: the operand checks, in their order, for every row of the Instruction Table. -/
def Obligations.OperandChecksForEveryOpcode : Prop :=
  ∀ (op : Word) (row : Row), instructionTable[op.toNat]? = some row → StepFaults op row.arity

/-- R74, R80: when the words at the pc decode to `i`, a step is the action of `i`, and nothing is added around it. -/
def Obligations.StepRunsTheDecodedInstruction : Prop :=
  ∀ (s : State) (i : Instr), s.fetches → s.decodeAtPc = .ok i → step s = exec i s

/-- R82, R83, R116: a step that waits changes only the status; a step that faults changes only the status and the
fault record, which names the instruction at the pc. -/
def Obligations.FaultingAndWaitingStepsArePrecise : Prop :=
  ∀ s t : State, step s = .next t →
    (t.status = .waitingInput → t = { s with status := .waitingInput }) ∧
    (t.status = .faulted → ∃ c info, t = s.faultedBy c info)

/-- R80: but for the five control transfers, an instruction that goes on continues at the fall-through address
`pc + 1 + arity`, which is at most 32768. -/
def Obligations.FallThroughIsNextInstruction : Prop :=
  ∀ (s t : State) (i : Instr), s.fetches → s.decodeAtPc = .ok i → step s = .next t → t.status = .running →
    s.pc.toNat + i.length ≤ 32768 ∧
    ((∃ a, i = .jmp a) ∨ (∃ a b, i = .jt a b) ∨ (∃ a b, i = .jf a b) ∨ (∃ a, i = .call a) ∨ i = .ret ∨
      t.pc.toNat = s.pc.toNat + i.length)

/-! ### What may change what -/

/-- R23: a register is written only by an instruction whose destination operand names it. -/
def Obligations.OnlyDestinationRegistersChange : Prop :=
  ∀ (i : Instr) (s t : State) (r : Reg), exec i s = .next t → t.readReg r ≠ s.readReg r →
    i.destOperand = some (.reg r)

/-- R38: a step changes a memory word only by a `wmem` to its address. -/
def Obligations.OnlyWmemChangesMemory : Prop :=
  ∀ (s t : State) (x : Nat), step s = .next t → t.readMem x ≠ s.readMem x →
    ∃ a b, s.decodeAtPc = .ok (.wmem a b) ∧ (s.val a).toNat = x ∧ t.readMem x = s.val b

/-- R30: a step changes the stack only by `push`, `pop`, `call` or `ret`, and only at its top. -/
def Obligations.OnlyStackInstructionsChangeStack : Prop :=
  ∀ s t : State, step s = .next t → t.stack ≠ s.stack →
    (∃ a, s.decodeAtPc = .ok (.push a) ∧ t.stack = s.stack ++ [s.val a]) ∨
    (∃ a, s.decodeAtPc = .ok (.call a) ∧ t.stack = s.stack ++ [s.pc + 2#16]) ∨
    (∃ i v, s.decodeAtPc = .ok (.pop (.reg i)) ∧ s.stack = t.stack ++ [v] ∧ t.readReg i = v) ∨
    (∃ v, s.decodeAtPc = .ok .ret ∧ s.stack = t.stack ++ [v] ∧ t.pc = v)

/-- R31, R20: a step takes input only by `in`, one code from the head, and puts out only by `out`, one value at the
end of the model's own output log (log entry 3). -/
def Obligations.PortsMoveOneValueInOrder : Prop :=
  ∀ s t : State, step s = .next t →
    (t.inq = s.inq ∨ ∃ i c, s.decodeAtPc = .ok (.inp (.reg i)) ∧ s.inq = c :: t.inq ∧ t.readReg i = c) ∧
    (t.output = s.output ∨ ∃ a, s.decodeAtPc = .ok (.out a) ∧ t.output = s.output ++ [s.val a])

/-- R34, R20: no instruction reads the status, the fault record or the output. On states that differ only there, an
instruction makes the same registers, memory, stack, pc and input queue, and puts out the same values; the status is
kept on both or becomes the same on both, and so is the fault record. The output log is the model's own (log entry 3). -/
def Obligations.InstructionsDoNotReadStatus : Prop :=
  ∀ (i : Instr) (s t : State) (st : Status) (f : FaultRecord) (o : List Word), exec i s = .next t →
    ∃ u, exec i { s with status := st, fault := f, output := o } = .next u ∧
      u.regs = t.regs ∧ u.mem = t.mem ∧ u.stack = t.stack ∧ u.pc = t.pc ∧ u.inq = t.inq ∧ u.cfg = t.cfg ∧
      (∃ e, t.output = s.output ++ e ∧ u.output = o ++ e) ∧
      ((t.status = s.status ∧ u.status = st) ∨ u.status = t.status) ∧
      ((t.fault = s.fault ∧ u.fault = f) ∨ u.fault = t.fault)

/-- R103, R110: the six ALU instructions write a value in [0, 32767]. -/
def Obligations.AluResultsAreBelow32768 : Prop :=
  ∀ (i : Instr) (r : Reg) (b c : Operand) (s t : State),
    (i = .add (.reg r) b c ∨ i = .mult (.reg r) b c ∨ i = .mod (.reg r) b c ∨ i = .and (.reg r) b c ∨
      i = .or (.reg r) b c ∨ i = .not (.reg r) b) →
    exec i s = .next t → s.status = .running → t.status = .running → (t.readReg r).toNat ≤ 32767

/-- R24: a register comes to hold a value above 32767 only by an instruction that copies one. -/
def Obligations.WideValuesOnlyByCopying : Prop :=
  ∀ (s t : State) (r : Reg), step s = .next t → t.readReg r ≠ s.readReg r → 32767 < (t.readReg r).toNat →
    (∃ b, s.decodeAtPc = .ok (.rmem (.reg r) b) ∧ t.readReg r = s.readMem (s.val b).toNat) ∨
    (s.decodeAtPc = .ok (.pop (.reg r)) ∧ s.stack = t.stack ++ [t.readReg r]) ∨
    (∃ j, s.decodeAtPc = .ok (.set (.reg r) (.reg j)) ∧ t.readReg r = s.readReg j) ∨
    (s.decodeAtPc = .ok (.inp (.reg r)) ∧ s.inq = t.readReg r :: t.inq)

/-! ### Frames -/

/-- Frame of set, eq, gt, add, mult, mod, and, or, not and rmem: they write their destination register and the pc, and
nothing else but, on a fatal error, the status and the fault record. -/
def Obligations.FrameOfRegisterWriters : Prop :=
  ∀ (i : Instr) (s t : State), i.writesRegisterOnly = true → exec i s = .next t →
    (∀ r, i.destOperand ≠ some (.reg r) → t.readReg r = s.readReg r) ∧
    (∀ x, t.readMem x = s.readMem x) ∧
    t.stack = s.stack ∧ t.inq = s.inq ∧ t.output = s.output ∧ t.cfg = s.cfg ∧
    ((t.status = s.status ∧ t.fault = s.fault) ∨ (t.status = .faulted ∧ t.pc = s.pc ∧ t.regs = s.regs))

/-- Frame of jmp, jt, jf and noop: only the pc may change. -/
def Obligations.FrameOfJumpsAndNoop : Prop :=
  ∀ (i : Instr) (s t : State),
    ((∃ a, i = .jmp a) ∨ (∃ a b, i = .jt a b) ∨ (∃ a b, i = .jf a b) ∨ i = .noop) → exec i s = .next t →
    (∀ r, t.readReg r = s.readReg r) ∧ (∀ x, t.readMem x = s.readMem x) ∧
    t.stack = s.stack ∧ t.inq = s.inq ∧ t.output = s.output ∧ t.cfg = s.cfg ∧
    t.status = s.status ∧ t.fault = s.fault

/-- Frame of push, pop, call and ret: beside the pc, the stack's top and `pop`'s register, only the ends of a run they
may come to write the status and the fault record. -/
def Obligations.FrameOfStackInstructions : Prop :=
  ∀ (i : Instr) (s t : State),
    ((∃ a, i = .push a) ∨ (∃ a, i = .pop a) ∨ (∃ a, i = .call a) ∨ i = .ret) → exec i s = .next t →
    (∀ r, i ≠ .pop (.reg r) → t.readReg r = s.readReg r) ∧ (∀ x, t.readMem x = s.readMem x) ∧
    (t.stack = s.stack ∨ (∃ v, t.stack = s.stack ++ [v]) ∨ (∃ v, s.stack = t.stack ++ [v])) ∧
    t.inq = s.inq ∧ t.output = s.output ∧ t.cfg = s.cfg ∧
    ((t.status = s.status ∧ t.fault = s.fault) ∨
      (t.status = .faulted ∧ t.pc = s.pc ∧ t.regs = s.regs ∧ t.stack = s.stack) ∨
      (i = .ret ∧ t.status = .haltedRetEmpty ∧ t.fault = s.fault ∧ t.stack = s.stack))

/-- Frame of wmem: beside the pc, only the word at the address `val(a)` may change. -/
def Obligations.FrameOfWmem : Prop :=
  ∀ (a b : Operand) (s t : State), exec (.wmem a b) s = .next t →
    (∀ x, x ≠ (s.val a).toNat → t.readMem x = s.readMem x) ∧
    (∀ r, t.readReg r = s.readReg r) ∧
    t.stack = s.stack ∧ t.inq = s.inq ∧ t.output = s.output ∧ t.cfg = s.cfg ∧
    ((t.status = s.status ∧ t.fault = s.fault) ∨
      (t.status = .faulted ∧ t.pc = s.pc ∧ ∀ x, t.readMem x = s.readMem x))

/-- Frame of halt, out and in: beside the pc, `halt` changes the status, `out` the output, and `in` its register, the
head of the queue or, to wait or to fault, the status. -/
def Obligations.FrameOfSystemInstructions : Prop :=
  ∀ (i : Instr) (s t : State), (i = .halt ∨ (∃ a, i = .out a) ∨ (∃ a, i = .inp a)) → exec i s = .next t →
    (∀ r, i ≠ .inp (.reg r) → t.readReg r = s.readReg r) ∧ (∀ x, t.readMem x = s.readMem x) ∧
    t.stack = s.stack ∧ t.cfg = s.cfg ∧
    (t.inq = s.inq ∨ ∃ r c, i = .inp (.reg r) ∧ s.inq = c :: t.inq) ∧
    (t.output = s.output ∨ ∃ a v, i = .out a ∧ t.output = s.output ++ [v]) ∧
    (t.fault = s.fault ∨ (∃ v, i = .inp (.lit v)) ∧ t.status = .faulted) ∧
    (t.status = s.status ∨ i = .halt ∧ t.status = .haltedHalt ∨
      (∃ a, i = .inp a) ∧ (t.status = .waitingInput ∨ t.status = .faulted))

/-! ### Invariants -/

/-- The invariant of Sys2Proof/Safety.lean (R9, R14, R32, R33, R75, R90, R101) is kept by every step. -/
def Obligations.InvariantKeptByEveryStep : Prop :=
  ∀ s t : State, s.Inv → step s = .next t → t.Inv

/-- The invariant holds after reset, with any image that is a valid launch and any STACK_CAPACITY. -/
def Obligations.InvariantHoldsAtReset : Prop :=
  State.reset.Inv ∧ ∀ (cfg : Config) (image : List Word) (t : State), reset cfg image = .next t → t.Inv

/-- The invariant is kept by every run of the CORE and its host: steps, input supply and stop requests (R121,
R124), the host's actions as the model writes them (log entry 7). -/
def Obligations.InvariantKeptByEveryRun : Prop :=
  ∀ (es : List Event) (s t : State), s.Inv → runEvents es s = .next t → t.Inv

/-! ### Reset, the host's actions, the ends of a run -/

/-- R36, R136: what reset leaves in every field, for every image of at most 32768 words, and for every STACK_CAPACITY;
a longer image is refused (R39, the spec's decision D17). That State carries the configuration and an output log, empty
at reset, is the model's choice (log entries 3 and 4). -/
def Obligations.ResetLoadsImageAndClearsState : Prop :=
  ∀ (cfg : Config) (image : List Word),
    (image.length ≤ 32768 → ∃ t : State, reset cfg image = .next t ∧
      (∀ k (h : k < image.length), t.readMem k = image[k]) ∧ (∀ k, image.length ≤ k → t.readMem k = 0#16) ∧
      (∀ r, t.readReg r = 0#16) ∧ t.stack = [] ∧ t.pc = 0#16 ∧ t.inq = [] ∧ t.status = .running ∧
      t.fault = FaultRecord.clear ∧ t.cfg = cfg ∧ t.output = []) ∧
    (32768 < image.length → reset cfg image = .refused .imageTooLong)

/-- R121: input supply; a stop request does not write the queue. -/
def Obligations.SupplyAppendsAndResumes : Prop :=
  ∀ (codes : List Word) (s : State),
    (s.status = .waitingInput → codes ≠ [] →
      supplyInput codes s = .next { s with inq := s.inq ++ codes, status := .running }) ∧
    (∀ t, supplyInput codes s = .next t → s.status = .waitingInput ∧ codes ≠ []) ∧
    (requestStop s).inq = s.inq

/-- R90, R121, R132: a CORE that waits executes its `in` again once the host has supplied input, and takes the first
code supplied. -/
def Obligations.WaitingInExecutesAfterSupply : Prop :=
  ∀ (s : State) (c : Word) (cs : List Word), s.Inv → s.status = .waitingInput →
    ∃ (i : Reg) (u : State), s.decodeAtPc = .ok (.inp (.reg i)) ∧ supplyInput (c :: cs) s = .next u ∧
      step u = .next { s with
        inq := cs, regs := s.regs.set i c, pc := s.pc + 2#16, status := .running }

/-- R124: stop request. -/
def Obligations.StopActsOnLiveCoresOnly : Prop :=
  ∀ s : State,
    (s.status = .running ∨ s.status = .waitingInput → requestStop s = { s with status := .stopped }) ∧
    (s.status ≠ .running → s.status ≠ .waitingInput → requestStop s = s) ∧
    ∀ t, step (requestStop s) ≠ .next t

/-- R32, R33, R35, R113: the codes the status port shows, and the input-request indication, high exactly while the CORE
waits. -/
def Obligations.StatusPortShowsCodes : Prop :=
  ∀ s : State,
    ((statusPort s).inputRequest = true ↔ s.status = .waitingInput) ∧
    (statusPort s).faultPc = s.fault.pc ∧ (statusPort s).faultInfo = s.fault.info ∧
    [Status.running, .waitingInput, .haltedHalt, .haltedRetEmpty, .haltedRunoff, .faulted, .stopped][(statusPort s).status]?
      = some s.status ∧
    [none, some FaultCause.unknownOpcode, some .operandFetchOutOfRange, some .illegalOperand,
      some .invalidRegisterTarget, some .stackUnderflow, some .stackOverflow, some .divideByZero,
      some .memoryAddressOutOfRange][(statusPort s).faultCause]? = some s.fault.cause

/-- R125, R126: a snapshot is defined exactly in STOPPED, and what is restored from it has the stopped CORE's five
fields, RUNNING with a zero fault record. -/
def Obligations.RestoreOfSnapshotIsTheMachine : Prop :=
  ∀ (s : State) (cfg : Config),
    (s.status ≠ .stopped → snapshot s = none) ∧
    (s.status = .stopped → ∃ r, snapshot s = some r ∧
      (restore cfg r).mem = s.mem ∧ (restore cfg r).regs = s.regs ∧ (restore cfg r).stack = s.stack ∧
      (restore cfg r).pc = s.pc ∧ (restore cfg r).inq = s.inq ∧
      (restore cfg r).status = .running ∧ (restore cfg r).fault = FaultRecord.clear)

/-- R84, R115: nothing that can happen to a CORE in a terminal status changes it. -/
def Obligations.TerminalStatusesAreFinal : Prop :=
  ∀ (es : List Event) (s t : State), s.status ≠ .running → s.status ≠ .waitingInput →
    runEvents es s = .next t → t = s

/-! ### Whole-machine laws -/

/-- R102: a `ret` that meets the stack as its `call` left it resumes just after the `call`. -/
def Obligations.RetResumesAfterCall : Prop :=
  ∀ (a : Operand) (s t u : State), (∀ n, s.cfg.stackCapacity = some n → s.stack.length ≠ n) →
    exec (.call a) s = .next t → u.stack = t.stack →
    exec .ret u = .next { u with stack := s.stack, pc := s.pc + 2#16 }

/-- R28, R93, R94: values pushed one after the other come back in reverse order: `k` pops after `n` pushes, for every
`k` up to `n`, leave the first `n - k` values on the stack as it was, and the register holds the `k`-th value from the
end. -/
def Obligations.PopsReverseThePushes : Prop :=
  ∀ (vs : List Operand) (i : Reg) (s : State) (k : Nat),
    (∀ n, s.cfg.stackCapacity = some n → s.stack.length + vs.length ≤ n) → k ≤ vs.length →
    ∃ t, execSeq (vs.map .push ++ List.replicate k (.pop (.reg i))) s = .next t ∧
      t.stack = s.stack ++ (vs.take (vs.length - k)).map s.val ∧
      ∀ v ∈ vs[vs.length - k]?, t.readReg i = s.val v

/-! ### The static decoder -/

/-- R66 to R70: what the static decoder gives at a position: DATA of length 1, or the instruction decoded there, with
the upper-cased mnemonic and the length `1 + arity` of its row of the Instruction Table and its operands in order; only
`out` renders its literal as a character too. -/
def Obligations.StaticDecoderRendersPosition : Prop :=
  ∀ (image : List Word) (pos : Nat) (w : Word) (ws : List Word), image.drop pos = w :: ws →
    (∀ i rest, decode w ws = .ok (i, rest) → ∃ row, instructionTable[w.toNat]? = some row ∧
      upperName i = String.ofList (row.mnemonic.toList.map Char.toUpper) ∧ i.operands.length = row.arity ∧
      decodeStatic image pos = some (.instr (upperName i) (renderOperands i), 1 + row.arity)) ∧
    (∀ e, decode w ws = .error e → decodeStatic image pos = some (.data w, 1)) ∧
    (∀ v, renderOperands (.out (.lit v)) = [.litChar v]) ∧
    (∀ i : Instr, (∀ v, i ≠ .out (.lit v)) → renderOperands i = i.operands.map renderOperand) ∧
    (∀ v, renderOperand (.lit v) = .lit v) ∧ (∀ r, renderOperand (.reg r) = .reg r)

/-- R72: the scan visits every word of the image once: its items, put back into words, are the image, and each stands
at the position its line gives. -/
def Obligations.DisassemblyCoversTheImage : Prop :=
  ∀ image : List Word,
    (scan image).flatMap (fun l => l.2.words) = image ∧
    ∀ l ∈ scan image, decodeItem image l.1 = some (l.2, l.2.length)
end

