-- ==== Sys2Proof/Laws/Decode.lean ====
section
/-! SUPPORT. Laws of operand classification and of the Instruction Table. -/

namespace Sys2Proof

/-! ### The parameters as numbers -/

@[simp] theorem memWords_eq : memWords = 32768 := rfl

@[simp] theorem regBase_eq : regBase = 32768 := rfl

@[simp] theorem regCount_eq : regCount = 8 := rfl

@[simp] theorem valueModulus_eq : valueModulus = 32768 := rfl

/-! ### Classification -/

theorem classify_of_lt {w : Word} (h : w.toNat < 32768) : classify w = some (.lit (w.setWidth 15)) := by
  simp [classify, h]

theorem classify_of_reg {w : Word} (h : 32768 ≤ w.toNat) (h' : w.toNat < 32776) :
    classify w = some (.reg ⟨w.toNat - 32768, by omega⟩) := by
  have h1 : ¬ w.toNat < regBase := by simp; omega
  have h2 : w.toNat < regBase + regCount := by simpa using h'
  simp only [classify, h1, h2, dite_true, dite_false]

theorem classify_eq_none_iff {w : Word} : classify w = none ↔ 32776 ≤ w.toNat := by
  by_cases h : w.toNat < 32768
  · simp [classify_of_lt h]; omega
  · by_cases h' : w.toNat < 32776
    · simp [classify_of_reg (by omega) h']; omega
    · have h2 : ¬ w.toNat < 32768 + 8 := by omega
      simp [classify, h, h2]; omega

@[simp] theorem encodeOperand_lit (v : Literal) : encodeOperand (.lit v) = v.setWidth 16 := rfl

@[simp] theorem encodeOperand_reg (i : Reg) : encodeOperand (.reg i) = BitVec.ofNat 16 (32768 + i.val) := rfl

/-- An operand is read back from its word. -/
theorem classify_encodeOperand (o : Operand) : classify (encodeOperand o) = some o := by
  cases o with
  | lit v =>
    have hv : (v.setWidth 16).toNat = v.toNat := by
      rw [BitVec.toNat_setWidth]; exact Nat.mod_eq_of_lt (by have := v.isLt; omega)
    rw [encodeOperand_lit, classify_of_lt (by have := v.isLt; omega)]
    congr 2
    apply BitVec.eq_of_toNat_eq
    rw [BitVec.toNat_setWidth, hv]
    exact Nat.mod_eq_of_lt v.isLt
  | reg i =>
    have hi : (BitVec.ofNat 16 (32768 + i.val)).toNat = 32768 + i.val := by
      rw [BitVec.toNat_ofNat]; exact Nat.mod_eq_of_lt (by have := i.isLt; omega)
    rw [encodeOperand_reg, classify_of_reg (by omega) (by have := i.isLt; omega)]
    exact congrArg (fun j => some (Operand.reg j)) (Fin.ext (by simp only [hi]; omega))

/-- A legal operand word is the word of its operand. -/
theorem encodeOperand_of_classify {w : Word} {o : Operand} (h : classify w = some o) : encodeOperand o = w := by
  by_cases h1 : w.toNat < 32768
  · rw [classify_of_lt h1] at h
    cases h
    apply BitVec.eq_of_toNat_eq
    rw [encodeOperand_lit, BitVec.toNat_setWidth, BitVec.toNat_setWidth, Nat.mod_eq_of_lt (a := w.toNat) h1]
    exact Nat.mod_eq_of_lt (by omega)
  · by_cases h2 : w.toNat < 32776
    · rw [classify_of_reg (by omega) h2] at h
      cases h
      apply BitVec.eq_of_toNat_eq
      rw [encodeOperand_reg, BitVec.toNat_ofNat]
      show (32768 + (w.toNat - 32768)) % 65536 = w.toNat
      omega
    · rw [classify_eq_none_iff.mpr (by omega)] at h
      cases h

theorem decodeOperand_encodeOperand (o : Operand) : decodeOperand (encodeOperand o) = .ok o := by
  simp [decodeOperand, classify_encodeOperand]

theorem decodeOperand_ok {w : Word} {o : Operand} (h : decodeOperand w = .ok o) : encodeOperand o = w := by
  unfold decodeOperand at h
  split at h
  · rename_i o' ho
    cases h
    exact encodeOperand_of_classify ho
  · cases h

theorem decodeOperand_legal {w : Word} (h : w.toNat ≤ 32775) : ∃ o, decodeOperand w = .ok o := by
  cases hc : classify w with
  | none => exact absurd (classify_eq_none_iff.mp hc) (by omega)
  | some o => exact ⟨o, by simp [decodeOperand, hc]⟩

theorem decodeOperand_illegal {w : Word} (h : 32775 < w.toNat) : decodeOperand w = .error (.illegalOperand w) := by
  simp [decodeOperand, classify_eq_none_iff.mpr (show 32776 ≤ w.toNat by omega)]

theorem decodeOperand_error {w : Word} {e : DecodeError} (h : decodeOperand w = .error e) :
    e = .illegalOperand w := by
  unfold decodeOperand at h
  split at h <;> cases h
  rfl

theorem instructionTable_length : instructionTable.length = 22 := rfl

/-- A word selects a row of the table exactly when it is an opcode. -/
theorem instructionTable_none_iff {n : Nat} : instructionTable[n]? = none ↔ 22 ≤ n := by
  rw [List.getElem?_eq_none_iff, instructionTable_length]

/-- The arity of every row is that of its format, and the number of its operand kinds (R59, R60). -/
theorem instructionTable_arities :
    ∀ row ∈ instructionTable, row.arity = row.format.arity ∧ row.kinds.length = row.arity := by
  simp [instructionTable, Format.arity]

theorem decode_of_row {op : Word} {row : Row} (h : instructionTable[op.toNat]? = some row) (ws : List Word) :
    decode op ws = decodeOperands op row.format ws := by
  simp [decode, h]

theorem decode_of_no_row {op : Word} (h : instructionTable[op.toNat]? = none) (ws : List Word) :
    decode op ws = .error (.unknownOpcode op) := by
  simp [decode, h]

/-- Too few words for the format is an operand fetch out of range, whatever the words are (R77). -/
theorem decodeOperands_short (op : Word) (f : Format) (ws : List Word) (h : ws.length < f.arity) :
    decodeOperands op f ws = .error (.operandFetch op) := by
  cases f <;> rcases ws with _ | ⟨a, _ | ⟨b, _ | ⟨c, ws⟩⟩⟩ <;> simp [Format.arity] at h <;> first | rfl | omega

/-- The first illegal operand word decides, whatever comes after it (R78). -/
theorem decodeOperands_illegal (op : Word) (f : Format) (ws : List Word) (k : Nat) (hk : k < f.arity)
    (hl : f.arity ≤ ws.length) (hj : ∀ j (h : j < ws.length), j < k → (ws[j]).toNat ≤ 32775) (hw : 32775 < (ws[k]'(by omega)).toNat) :
    decodeOperands op f ws = .error (.illegalOperand (ws[k]'(by omega))) := by
  cases f with
  | f0 i => simp [Format.arity] at hk
  | f1 mk =>
    rcases ws with _ | ⟨a, ws⟩
    · simp [Format.arity] at hl
    · obtain rfl : k = 0 := by simp [Format.arity] at hk; omega
      simp at hw
      simp [decodeOperands, decodeOperand_illegal hw, bind, Except.bind]
  | f2 mk =>
    rcases ws with _ | ⟨a, _ | ⟨b, ws⟩⟩
    · simp [Format.arity] at hl
    · simp [Format.arity] at hl
    · have : k = 0 ∨ k = 1 := by simp [Format.arity] at hk; omega
      rcases this with rfl | rfl
      · simp at hw
        simp [decodeOperands, decodeOperand_illegal hw, bind, Except.bind]
      · simp at hw
        obtain ⟨o, ho⟩ := decodeOperand_legal (hj 0 (by simp) (by omega))
        simp at ho
        simp [decodeOperands, decodeOperand_illegal hw, ho, bind, Except.bind]
  | f3 mk =>
    rcases ws with _ | ⟨a, _ | ⟨b, _ | ⟨c, ws⟩⟩⟩
    · simp [Format.arity] at hl
    · simp [Format.arity] at hl
    · simp [Format.arity] at hl
    · have : k = 0 ∨ k = 1 ∨ k = 2 := by simp [Format.arity] at hk; omega
      rcases this with rfl | rfl | rfl
      · simp at hw
        simp [decodeOperands, decodeOperand_illegal hw, bind, Except.bind]
      · simp at hw
        obtain ⟨o, ho⟩ := decodeOperand_legal (hj 0 (by simp) (by omega))
        simp at ho
        simp [decodeOperands, decodeOperand_illegal hw, ho, bind, Except.bind]
      · simp at hw
        obtain ⟨o, ho⟩ := decodeOperand_legal (hj 0 (by simp) (by omega))
        obtain ⟨o', ho'⟩ := decodeOperand_legal (hj 1 (by simp) (by omega))
        simp at ho ho'
        simp [decodeOperands, decodeOperand_illegal hw, ho, ho', bind, Except.bind]

end Sys2Proof
end

