-- ==== Sys2Proof/Laws/State.lean ====
section
/-! SUPPORT. One lemma per field per update of State, so that no proof unfolds a record update. -/

namespace Sys2Proof.Machine

variable (s : State)

/-! ### writeMem -/

@[simp] theorem State.writeMem_cfg (a : Nat) (v : Word) : (s.writeMem a v).cfg = s.cfg := rfl
@[simp] theorem State.writeMem_mem (a : Nat) (v : Word) : (s.writeMem a v).mem = s.mem.write a v := rfl
@[simp] theorem State.writeMem_regs (a : Nat) (v : Word) : (s.writeMem a v).regs = s.regs := rfl
@[simp] theorem State.writeMem_stack (a : Nat) (v : Word) : (s.writeMem a v).stack = s.stack := rfl
@[simp] theorem State.writeMem_pc (a : Nat) (v : Word) : (s.writeMem a v).pc = s.pc := rfl
@[simp] theorem State.writeMem_inq (a : Nat) (v : Word) : (s.writeMem a v).inq = s.inq := rfl
@[simp] theorem State.writeMem_status (a : Nat) (v : Word) : (s.writeMem a v).status = s.status := rfl
@[simp] theorem State.writeMem_fault (a : Nat) (v : Word) : (s.writeMem a v).fault = s.fault := rfl
@[simp] theorem State.writeMem_output (a : Nat) (v : Word) : (s.writeMem a v).output = s.output := rfl

/-! ### writeReg -/

@[simp] theorem State.writeReg_cfg (i : Reg) (v : Word) : (s.writeReg i v).cfg = s.cfg := rfl
@[simp] theorem State.writeReg_mem (i : Reg) (v : Word) : (s.writeReg i v).mem = s.mem := rfl
@[simp] theorem State.writeReg_regs (i : Reg) (v : Word) : (s.writeReg i v).regs = s.regs.set i.val v i.isLt := rfl
@[simp] theorem State.writeReg_stack (i : Reg) (v : Word) : (s.writeReg i v).stack = s.stack := rfl
@[simp] theorem State.writeReg_pc (i : Reg) (v : Word) : (s.writeReg i v).pc = s.pc := rfl
@[simp] theorem State.writeReg_inq (i : Reg) (v : Word) : (s.writeReg i v).inq = s.inq := rfl
@[simp] theorem State.writeReg_status (i : Reg) (v : Word) : (s.writeReg i v).status = s.status := rfl
@[simp] theorem State.writeReg_fault (i : Reg) (v : Word) : (s.writeReg i v).fault = s.fault := rfl
@[simp] theorem State.writeReg_output (i : Reg) (v : Word) : (s.writeReg i v).output = s.output := rfl

/-! ### setPc -/

@[simp] theorem State.setPc_cfg (p : Word) : (s.setPc p).cfg = s.cfg := rfl
@[simp] theorem State.setPc_mem (p : Word) : (s.setPc p).mem = s.mem := rfl
@[simp] theorem State.setPc_regs (p : Word) : (s.setPc p).regs = s.regs := rfl
@[simp] theorem State.setPc_stack (p : Word) : (s.setPc p).stack = s.stack := rfl
@[simp] theorem State.setPc_pc (p : Word) : (s.setPc p).pc = p := rfl
@[simp] theorem State.setPc_inq (p : Word) : (s.setPc p).inq = s.inq := rfl
@[simp] theorem State.setPc_status (p : Word) : (s.setPc p).status = s.status := rfl
@[simp] theorem State.setPc_fault (p : Word) : (s.setPc p).fault = s.fault := rfl
@[simp] theorem State.setPc_output (p : Word) : (s.setPc p).output = s.output := rfl

/-! ### advance -/

@[simp] theorem State.advance_cfg (n : Nat) : (s.advance n).cfg = s.cfg := rfl
@[simp] theorem State.advance_mem (n : Nat) : (s.advance n).mem = s.mem := rfl
@[simp] theorem State.advance_regs (n : Nat) : (s.advance n).regs = s.regs := rfl
@[simp] theorem State.advance_stack (n : Nat) : (s.advance n).stack = s.stack := rfl
@[simp] theorem State.advance_pc (n : Nat) : (s.advance n).pc = s.nextPc n := rfl
@[simp] theorem State.advance_inq (n : Nat) : (s.advance n).inq = s.inq := rfl
@[simp] theorem State.advance_status (n : Nat) : (s.advance n).status = s.status := rfl
@[simp] theorem State.advance_fault (n : Nat) : (s.advance n).fault = s.fault := rfl
@[simp] theorem State.advance_output (n : Nat) : (s.advance n).output = s.output := rfl

/-! ### raise -/

@[simp] theorem State.raise_cfg (c : FaultCause) (w : Word) : (s.raise c w).cfg = s.cfg := rfl
@[simp] theorem State.raise_mem (c : FaultCause) (w : Word) : (s.raise c w).mem = s.mem := rfl
@[simp] theorem State.raise_regs (c : FaultCause) (w : Word) : (s.raise c w).regs = s.regs := rfl
@[simp] theorem State.raise_stack (c : FaultCause) (w : Word) : (s.raise c w).stack = s.stack := rfl
@[simp] theorem State.raise_pc (c : FaultCause) (w : Word) : (s.raise c w).pc = s.pc := rfl
@[simp] theorem State.raise_inq (c : FaultCause) (w : Word) : (s.raise c w).inq = s.inq := rfl
@[simp] theorem State.raise_status (c : FaultCause) (w : Word) : (s.raise c w).status = .faulted := rfl
@[simp] theorem State.raise_fault (c : FaultCause) (w : Word) : (s.raise c w).fault = { cause := some c, pc := s.pc, info := w } := rfl
@[simp] theorem State.raise_output (c : FaultCause) (w : Word) : (s.raise c w).output = s.output := rfl

/-! ### halt -/

@[simp] theorem State.halt_cfg (r : Status) : (s.halt r).cfg = s.cfg := rfl
@[simp] theorem State.halt_mem (r : Status) : (s.halt r).mem = s.mem := rfl
@[simp] theorem State.halt_regs (r : Status) : (s.halt r).regs = s.regs := rfl
@[simp] theorem State.halt_stack (r : Status) : (s.halt r).stack = s.stack := rfl
@[simp] theorem State.halt_pc (r : Status) : (s.halt r).pc = s.pc := rfl
@[simp] theorem State.halt_inq (r : Status) : (s.halt r).inq = s.inq := rfl
@[simp] theorem State.halt_status (r : Status) : (s.halt r).status = r := rfl
@[simp] theorem State.halt_fault (r : Status) : (s.halt r).fault = s.fault := rfl
@[simp] theorem State.halt_output (r : Status) : (s.halt r).output = s.output := rfl

/-! ### waitInput -/

@[simp] theorem State.waitInput_cfg : s.waitInput.cfg = s.cfg := rfl
@[simp] theorem State.waitInput_mem : s.waitInput.mem = s.mem := rfl
@[simp] theorem State.waitInput_regs : s.waitInput.regs = s.regs := rfl
@[simp] theorem State.waitInput_stack : s.waitInput.stack = s.stack := rfl
@[simp] theorem State.waitInput_pc : s.waitInput.pc = s.pc := rfl
@[simp] theorem State.waitInput_inq : s.waitInput.inq = s.inq := rfl
@[simp] theorem State.waitInput_status : s.waitInput.status = .waitingInput := rfl
@[simp] theorem State.waitInput_fault : s.waitInput.fault = s.fault := rfl
@[simp] theorem State.waitInput_output : s.waitInput.output = s.output := rfl

/-! ### push -/

@[simp] theorem State.push_cfg (v : Word) : (s.push v).cfg = s.cfg := rfl
@[simp] theorem State.push_mem (v : Word) : (s.push v).mem = s.mem := rfl
@[simp] theorem State.push_regs (v : Word) : (s.push v).regs = s.regs := rfl
@[simp] theorem State.push_stack (v : Word) : (s.push v).stack = s.stack ++ [v] := rfl
@[simp] theorem State.push_pc (v : Word) : (s.push v).pc = s.pc := rfl
@[simp] theorem State.push_inq (v : Word) : (s.push v).inq = s.inq := rfl
@[simp] theorem State.push_status (v : Word) : (s.push v).status = s.status := rfl
@[simp] theorem State.push_fault (v : Word) : (s.push v).fault = s.fault := rfl
@[simp] theorem State.push_output (v : Word) : (s.push v).output = s.output := rfl

/-! ### dropTop -/

@[simp] theorem State.dropTop_cfg : s.dropTop.cfg = s.cfg := rfl
@[simp] theorem State.dropTop_mem : s.dropTop.mem = s.mem := rfl
@[simp] theorem State.dropTop_regs : s.dropTop.regs = s.regs := rfl
@[simp] theorem State.dropTop_stack : s.dropTop.stack = s.stack.dropLast := rfl
@[simp] theorem State.dropTop_pc : s.dropTop.pc = s.pc := rfl
@[simp] theorem State.dropTop_inq : s.dropTop.inq = s.inq := rfl
@[simp] theorem State.dropTop_status : s.dropTop.status = s.status := rfl
@[simp] theorem State.dropTop_fault : s.dropTop.fault = s.fault := rfl
@[simp] theorem State.dropTop_output : s.dropTop.output = s.output := rfl

/-! ### emit -/

@[simp] theorem State.emit_cfg (v : Word) : (s.emit v).cfg = s.cfg := rfl
@[simp] theorem State.emit_mem (v : Word) : (s.emit v).mem = s.mem := rfl
@[simp] theorem State.emit_regs (v : Word) : (s.emit v).regs = s.regs := rfl
@[simp] theorem State.emit_stack (v : Word) : (s.emit v).stack = s.stack := rfl
@[simp] theorem State.emit_pc (v : Word) : (s.emit v).pc = s.pc := rfl
@[simp] theorem State.emit_inq (v : Word) : (s.emit v).inq = s.inq := rfl
@[simp] theorem State.emit_status (v : Word) : (s.emit v).status = s.status := rfl
@[simp] theorem State.emit_fault (v : Word) : (s.emit v).fault = s.fault := rfl
@[simp] theorem State.emit_output (v : Word) : (s.emit v).output = s.output ++ [v] := rfl

/-! ### setInq -/

@[simp] theorem State.setInq_cfg (q : List Word) : (s.setInq q).cfg = s.cfg := rfl
@[simp] theorem State.setInq_mem (q : List Word) : (s.setInq q).mem = s.mem := rfl
@[simp] theorem State.setInq_regs (q : List Word) : (s.setInq q).regs = s.regs := rfl
@[simp] theorem State.setInq_stack (q : List Word) : (s.setInq q).stack = s.stack := rfl
@[simp] theorem State.setInq_pc (q : List Word) : (s.setInq q).pc = s.pc := rfl
@[simp] theorem State.setInq_inq (q : List Word) : (s.setInq q).inq = q := rfl
@[simp] theorem State.setInq_status (q : List Word) : (s.setInq q).status = s.status := rfl
@[simp] theorem State.setInq_fault (q : List Word) : (s.setInq q).fault = s.fault := rfl
@[simp] theorem State.setInq_output (q : List Word) : (s.setInq q).output = s.output := rfl

end Sys2Proof.Machine
end

