-- ==== Sys2Proof/Laws/Step.lean ====
section
/-! SUPPORT. What each shared operation of the meanings can do, and what a step can do, said once. -/

namespace Sys2Proof.Machine

/-! ### Registers and operands -/

theorem State.readReg_writeReg (s : State) (i j : Reg) (v : Word) :
    (s.writeReg i v).readReg j = if i = j then v else s.readReg j := by
  simp only [State.readReg, State.writeReg]
  change ((s.regs.set i.val v i.isLt)[j.val]) = _
  rw [Vector.getElem_set]
  by_cases h : i = j
  · simp [h]
  · have h' : ¬ i.val = j.val := fun e => h (Fin.ext e)
    simp only [h, h', if_false]
    rfl

@[simp] theorem State.readReg_writeReg_self (s : State) (i : Reg) (v : Word) : (s.writeReg i v).readReg i = v := by
  simp [State.readReg_writeReg]

@[simp] theorem State.val_lit (s : State) (v : Literal) : s.val (.lit v) = v.setWidth 16 := rfl

@[simp] theorem State.val_reg (s : State) (i : Reg) : s.val (.reg i) = s.readReg i := rfl

/-! ### The shared forms of the meanings -/

@[simp] theorem withDest_lit (v : Literal) (s : State) (f : Reg → Result) :
    withDest (.lit v) s f = .next (s.raise .invalidRegisterTarget (v.setWidth 16)) := rfl

@[simp] theorem withDest_reg (i : Reg) (s : State) (f : Reg → Result) : withDest (.reg i) s f = f i := rfl

theorem withDest_cases {a : Operand} {s t : State} {f : Reg → Result} (h : withDest a s f = .next t) :
    (∃ v, a = .lit v ∧ t = s.raise .invalidRegisterTarget (v.setWidth 16)) ∨ ∃ i, a = .reg i ∧ f i = .next t := by
  cases a with
  | lit v => exact .inl ⟨v, rfl, by simpa using h.symm⟩
  | reg i => exact .inr ⟨i, rfl, h⟩

@[simp] theorem writeDest_lit (v : Literal) (n : Nat) (w : Word) (s : State) :
    writeDest (.lit v) n w s = .next (s.raise .invalidRegisterTarget (v.setWidth 16)) := rfl

@[simp] theorem writeDest_reg (i : Reg) (n : Nat) (w : Word) (s : State) :
    writeDest (.reg i) n w s = .next ((s.writeReg i w).advance n) := rfl

theorem writeDest_cases {a : Operand} {n : Nat} {w : Word} {s t : State} (h : writeDest a n w s = .next t) :
    (∃ v, a = .lit v ∧ t = s.raise .invalidRegisterTarget (v.setWidth 16)) ∨
    ∃ i, a = .reg i ∧ t = (s.writeReg i w).advance n := by
  cases a with
  | lit v => exact .inl ⟨v, rfl, by simpa using h.symm⟩
  | reg i => exact .inr ⟨i, rfl, by simpa using h.symm⟩

theorem withAddr_cases {w : Word} {s t : State} {f : Nat → Result} (h : withAddr w s f = .next t) :
    (32768 ≤ w.toNat ∧ t = s.raise .memoryAddressOutOfRange w) ∨ (w.toNat < 32768 ∧ f w.toNat = .next t) := by
  unfold withAddr at h
  split at h
  · rename_i hw
    exact .inl ⟨hw, by simpa using h.symm⟩
  · rename_i hw
    exact .inr ⟨by simpa using hw, h⟩

theorem State.stackFull_iff (s : State) : s.stackFull = true ↔ s.cfg.stackCapacity = some s.stack.length := by
  cases hc : s.cfg.stackCapacity with
  | none => simp [State.stackFull, hc]
  | some n =>
    simp only [State.stackFull, hc, beq_iff_eq, Option.some.injEq]
    exact eq_comm

/-- A stack that has not reached a finite capacity is not full. -/
theorem State.stackFull_eq_false {s : State} (h : ∀ n, s.cfg.stackCapacity = some n → s.stack.length ≠ n) : s.stackFull = false := by
  cases hh : s.stackFull
  · rfl
  · exact absurd rfl (h _ ((State.stackFull_iff s).mp hh))
theorem isZero_iff (v : Word) : isZero v = true ↔ v.toNat = 0 := by
  simp [isZero, ← BitVec.toNat_inj]

theorem State.raise_eq_faultedBy (s : State) (c : FaultCause) (w : Word) : s.raise c w = s.faultedBy c w := rfl

/-! ### The words after the pc -/

/-- Words that stand in memory, at most `k` of them, are the first of those the fetch sees. -/
theorem wordsFrom_append (m : Memory) (a k : Nat) (ws : List Word) (hk : ws.length ≤ k)
    (h : a + ws.length ≤ memWords) (hr : ∀ j (hj : j < ws.length), m.read (a + j) = ws[j]) :
    ∃ rest, wordsFrom m a k = ws ++ rest := by
  induction ws generalizing a k with
  | nil => exact ⟨_, rfl⟩
  | cons w ws ih =>
    obtain ⟨k, rfl⟩ : ∃ k', k = k' + 1 := ⟨k - 1, by simp at hk; omega⟩
    simp only [List.length_cons] at h hk hr
    have ha : a < memWords := by omega
    obtain ⟨rest, hrest⟩ := ih (a + 1) k (by omega) (by omega) (fun j hj => by
      have := hr (j + 1) (by omega)
      rw [show a + 1 + j = a + (j + 1) by omega, this]; rfl)
    refine ⟨rest, ?_⟩
    have h0 := hr 0 (by omega)
    simp only [Nat.add_zero] at h0
    simp only [wordsFrom, ha, if_true, hrest, h0]
    rfl

/-- Only the words below address 32768 are seen. -/
theorem wordsFrom_length (m : Memory) (a k : Nat) : (wordsFrom m a k).length = min k (32768 - a) := by
  induction k generalizing a with
  | zero => simp [wordsFrom]
  | succ k ih =>
    by_cases h : a < memWords
    · simp only [wordsFrom, h, if_true, List.length_cons, ih]; simp at h; omega
    · simp only [wordsFrom, h, if_false, List.length_nil]; simp at h; omega

theorem wordsFrom_getElem (m : Memory) (a k j : Nat) (h : j < (wordsFrom m a k).length) :
    (wordsFrom m a k)[j] = m.read (a + j) := by
  induction k generalizing a j with
  | zero => simp [wordsFrom] at h
  | succ k ih =>
    by_cases ha : a < memWords
    · cases j with
      | zero => simp [wordsFrom, ha]
      | succ j =>
        simp only [wordsFrom, ha, if_true, List.length_cons] at h
        simp only [wordsFrom, ha, if_true, List.getElem_cons_succ]
        rw [ih _ _ (by omega)]; congr 1; omega
    · simp [wordsFrom, ha] at h

/-! ### A step -/

/-- What a step with a next state can be: the runoff halt, a fatal error of the fetch, or the action of the decoded
instruction; it is enabled in RUNNING only. -/
theorem step_cases {s t : State} (h : step s = .next t) :
    s.status = .running ∧
      ((32768 ≤ s.pc.toNat ∧ t = s.halt .haltedRunoff) ∨
       (s.fetches ∧ ∃ e, s.decodeAtPc = .error e ∧ t = s.raise (decodeCause e) (decodeInfo e)) ∨
       (s.fetches ∧ ∃ i, s.decodeAtPc = .ok i ∧ exec i s = .next t)) := by
  unfold step fetch at h
  cases hs : s.status <;> simp only [hs] at h <;> try (exact absurd h (by simp))
  refine ⟨rfl, ?_⟩
  unfold fetchRunning at h
  by_cases hpc : memWords ≤ s.pc.toNat
  · simp only [hpc, if_true] at h
    exact .inl ⟨hpc, by simpa using h.symm⟩
  · simp only [hpc, if_false] at h
    have hf : s.fetches := ⟨hs, by simpa using hpc⟩
    cases hd : s.decodeAtPc with
    | ok i =>
      simp only [hd] at h
      exact .inr (.inr ⟨hf, i, rfl, h⟩)
    | error e =>
      simp only [hd] at h
      exact .inr (.inl ⟨hf, e, rfl, by simpa using h.symm⟩)

theorem fetch_of_fetches {s : State} (h : s.fetches) : fetch s = fetchRunning s := by
  simp [fetch, h.1]

/-- A decoding failure is a fatal error of the step. -/
theorem step_of_decode_error {s : State} {e : DecodeError} (h : s.fetches) (hd : s.decodeAtPc = .error e) :
    step s = .next (s.raise (decodeCause e) (decodeInfo e)) := by
  have hpc : ¬ memWords ≤ s.pc.toNat := by have := h.2; omega
  simp [step, fetch_of_fetches h, fetchRunning, hpc, hd]

end Sys2Proof.Machine
end

