-- ==== Sys2Proof/Laws/Exec.lean ====
section
/-! SUPPORT. What the action of an instruction can do, said once for all instructions. -/

namespace Sys2Proof.Machine

/-- The ways an action ends in a next state: a fatal error, or the instruction's own effect. -/
inductive ExecEffect (s : State) : Instr → State → Prop where
  | raise (i : Instr) (c : FaultCause) (w : Word) : ExecEffect s i (s.raise c w)
  | write (i : Instr) (r : Reg) (v : Word) (hd : i.destOperand = some (.reg r)) (hw : i.writesRegisterOnly = true) :
      ExecEffect s i ((s.writeReg r v).advance i.operands.length)
  | jmp (a : Operand) : ExecEffect s (.jmp a) (s.setPc (s.val a))
  | jt (a b : Operand) (p : Word) : ExecEffect s (.jt a b) (s.setPc p)
  | jf (a b : Operand) (p : Word) : ExecEffect s (.jf a b) (s.setPc p)
  | noop : ExecEffect s .noop (s.advance 0)
  | halt : ExecEffect s .halt ((s.advance 0).halt .haltedHalt)
  | out (a : Operand) : ExecEffect s (.out a) ((s.emit (s.val a)).advance 1)
  | wait (r : Reg) (hq : s.inq = []) : ExecEffect s (.inp (.reg r)) s.waitInput
  | take (r : Reg) (c : Word) (q : List Word) (hq : s.inq = c :: q) :
      ExecEffect s (.inp (.reg r)) (((s.setInq q).writeReg r c).advance 1)
  | push (a : Operand) (hf : s.stackFull = false) : ExecEffect s (.push a) ((s.push (s.val a)).advance 1)
  | call (a : Operand) (hf : s.stackFull = false) :
      ExecEffect s (.call a) ((s.push (s.nextPc 1)).setPc (s.val a))
  | pop (r : Reg) (v : Word) (hv : s.stack.getLast? = some v) :
      ExecEffect s (.pop (.reg r)) ((s.dropTop.writeReg r v).advance 1)
  | ret (v : Word) (hv : s.stack.getLast? = some v) : ExecEffect s .ret (s.dropTop.setPc v)
  | retEmpty (hs : s.stack = []) : ExecEffect s .ret ((s.advance 0).halt .haltedRetEmpty)
  | wmem (a b : Operand) (ha : (s.val a).toNat < 32768) :
      ExecEffect s (.wmem a b) ((s.writeMem (s.val a).toNat (s.val b)).advance 2)

theorem ExecEffect.of_writeDest {i : Instr} {a : Operand} {n : Nat} {w : Word} {s t : State}
    (hd : i.destOperand = some a) (hw : i.writesRegisterOnly = true) (hn : i.operands.length = n)
    (h : writeDest a n w s = .next t) : ExecEffect s i t := by
  obtain ⟨v, rfl, rfl⟩ | ⟨r, rfl, rfl⟩ := writeDest_cases h
  · exact .raise i _ _
  · exact hn ▸ .write i r w hd hw

/-- Every action that has a next state has one of these effects. -/
theorem exec_effect {i : Instr} {s t : State} (h : exec i s = .next t) : ExecEffect s i t := by
  cases i with
  | halt => cases h; exact .halt
  | set a b => exact .of_writeDest rfl rfl rfl h
  | push a =>
    simp only [exec, execPush] at h
    split at h <;> cases h
    · exact .raise ..
    · exact .push a (by simp_all)
  | pop a =>
    simp only [exec, execPop] at h
    obtain ⟨v, rfl, rfl⟩ | ⟨r, rfl, h'⟩ := withDest_cases h
    · exact .raise ..
    · split at h' <;> cases h'
      · exact .raise ..
      · rename_i v hv; exact .pop r v hv
  | eq a b c => exact .of_writeDest rfl rfl rfl h
  | gt a b c => exact .of_writeDest rfl rfl rfl h
  | jmp a => cases h; exact .jmp a
  | jt a b =>
    simp only [exec, execJt] at h
    split at h <;> cases h <;> exact .jt a b _
  | jf a b =>
    simp only [exec, execJf] at h
    split at h <;> cases h <;> exact .jf a b _
  | add a b c => exact .of_writeDest rfl rfl rfl h
  | mult a b c => exact .of_writeDest rfl rfl rfl h
  | mod a b c =>
    simp only [exec, execMod] at h
    obtain ⟨v, rfl, rfl⟩ | ⟨r, rfl, h'⟩ := withDest_cases h
    · exact .raise ..
    · split at h' <;> cases h'
      · exact .raise ..
      · exact .write (.mod (.reg r) b c) r _ rfl rfl
  | and a b c => exact .of_writeDest rfl rfl rfl h
  | or a b c => exact .of_writeDest rfl rfl rfl h
  | not a b => exact .of_writeDest rfl rfl rfl h
  | rmem a b =>
    simp only [exec, execRmem] at h
    obtain ⟨v, rfl, rfl⟩ | ⟨r, rfl, h'⟩ := withDest_cases h
    · exact .raise ..
    · obtain ⟨-, rfl⟩ | ⟨-, h''⟩ := withAddr_cases h'
      · exact .raise ..
      · cases h''; exact .write (.rmem (.reg r) b) r _ rfl rfl
  | wmem a b =>
    simp only [exec, execWmem] at h
    obtain ⟨-, rfl⟩ | ⟨ha, h'⟩ := withAddr_cases h
    · exact .raise ..
    · cases h'; exact .wmem a b ha
  | call a =>
    simp only [exec, execCall] at h
    split at h <;> cases h
    · exact .raise ..
    · exact .call a (by simp_all)
  | ret =>
    simp only [exec, execRet] at h
    split at h <;> cases h
    · rename_i hv; exact .retEmpty (by simpa [State.top] using hv)
    · rename_i v hv; exact .ret v hv
  | out a => cases h; exact .out a
  | inp a =>
    simp only [exec, execIn] at h
    obtain ⟨v, rfl, rfl⟩ | ⟨r, rfl, h'⟩ := withDest_cases h
    · exact .raise ..
    · split at h' <;> cases h'
      · rename_i hq; exact .wait r hq
      · rename_i c q hq; exact .take r c q hq
  | noop => cases h; exact .noop

end Sys2Proof.Machine
end

