-- ==== Sys2Proof/Laws/Memory.lean ====
section
/-! SUPPORT. The laws of memory: a read after a write, and the canonical form that every memory operation keeps. -/

namespace Sys2Proof.Machine

@[simp] theorem Memory.read_nil (a : Nat) : Memory.read [] a = 0#16 := rfl

theorem Memory.read_cons (k : Nat) (v : Word) (m : Memory) (a : Nat) :
    Memory.read ((k, v) :: m) a = if k = a then v else Memory.read m a := rfl

theorem Memory.read_filter_self (m : Memory) (a : Nat) :
    Memory.read (m.filter (fun c => c.1 != a)) a = 0#16 := by
  induction m with
  | nil => rfl
  | cons c m ih =>
    by_cases h : c.1 = a
    · simpa [List.filter_cons, h] using ih
    · simpa [List.filter_cons, h, Memory.read] using ih

theorem Memory.read_filter_ne (m : Memory) {a b : Nat} (hab : b ≠ a) :
    Memory.read (m.filter (fun c => c.1 != a)) b = m.read b := by
  induction m with
  | nil => rfl
  | cons c m ih =>
    by_cases h : c.1 = a
    · have hb : ¬ a = b := fun e => hab e.symm
      simpa [List.filter_cons, h, Memory.read, hb] using ih
    · by_cases hb : c.1 = b
      · simp [hb, Memory.read, hab]
      · simpa [List.filter_cons, h, Memory.read, hb] using ih

theorem Memory.read_place (m : Memory) (a : Nat) (v : Word) (b : Nat) (hm : ∀ c ∈ m, c.1 ≠ a) :
    Memory.read (m.place a v) b = if a = b then v else m.read b := by
  induction m with
  | nil => simp [Memory.place, Memory.read]
  | cons c m ih =>
    obtain ⟨k, w⟩ := c
    have hk : k ≠ a := hm (k, w) (by simp)
    have ih' := ih fun c hc => hm c (by simp [hc])
    by_cases hlt : a < k
    · simp [Memory.place, hlt, Memory.read]
    · by_cases hkb : k = b
      · subst hkb
        have hak : ¬ a = k := fun e => hk e.symm
        simp [Memory.place, hlt, Memory.read, hak]
      · simp [Memory.place, hlt, Memory.read, hkb, ih']

/-- A read after a write: the written word at its address, every other word as it was. It holds of every list of
cells, canonical or not. -/
theorem Memory.read_write (m : Memory) (a : Nat) (v : Word) (b : Nat) :
    Memory.read (m.write a v) b = if a = b then v else m.read b := by
  by_cases hab : a = b
  · subst hab
    by_cases hv : v = 0#16
    · simp [Memory.write, hv, Memory.read_filter_self]
    · simp [Memory.write, hv, Memory.read_place]
  · have hba : b ≠ a := fun e => hab e.symm
    by_cases hv : v = 0#16
    · simp [Memory.write, hv, hab, Memory.read_filter_ne m hba]
    · simp [Memory.write, hv, hab, Memory.read_place, Memory.read_filter_ne m hba]

@[simp] theorem Memory.read_write_self (m : Memory) (a : Nat) (v : Word) : Memory.read (m.write a v) a = v := by
  simp [Memory.read_write]

theorem Memory.read_write_ne (m : Memory) {a b : Nat} (v : Word) (h : a ≠ b) :
    Memory.read (m.write a v) b = m.read b := by
  simp [Memory.read_write, h]

theorem Memory.mem_place {m : Memory} {a : Nat} {v : Word} {c : Nat × Word} :
    c ∈ m.place a v ↔ c = (a, v) ∨ c ∈ m := by
  induction m with
  | nil => simp [Memory.place]
  | cons d m ih =>
    obtain ⟨k, w⟩ := d
    by_cases hlt : a < k
    · simp [Memory.place, hlt]
    · simp only [Memory.place, hlt, if_false, List.mem_cons, ih]
      tauto

theorem Memory.place_sorted {m : Memory} {a : Nat} {v : Word} (hs : m.Pairwise (fun c d => c.1 < d.1))
    (hm : ∀ c ∈ m, c.1 ≠ a) : (m.place a v).Pairwise (fun c d => c.1 < d.1) := by
  induction m with
  | nil => simp [Memory.place]
  | cons d m ih =>
    obtain ⟨k, w⟩ := d
    obtain ⟨hd, hs'⟩ := List.pairwise_cons.mp hs
    have hk : k ≠ a := hm (k, w) (by simp)
    by_cases hlt : a < k
    · simp only [Memory.place, hlt, if_true]
      refine List.pairwise_cons.mpr ⟨?_, hs⟩
      intro c hc
      rcases List.mem_cons.mp hc with rfl | hc
      · exact hlt
      · exact Nat.lt_trans hlt (hd c hc)
    · simp only [Memory.place, hlt, if_false]
      refine List.pairwise_cons.mpr ⟨?_, ih hs' fun c hc => hm c (by simp [hc])⟩
      intro c hc
      rcases Memory.mem_place.mp hc with rfl | hc
      · show k < a
        omega
      · exact hd c hc

/-- A write below address 32768 keeps the canonical form. -/
theorem Memory.write_wf {m : Memory} {a : Nat} {v : Word} (h : m.wf) (ha : a < memWords) : (m.write a v).wf := by
  obtain ⟨hs, hc⟩ := h
  have hs' : (m.filter (fun c => c.1 != a)).Pairwise (fun c d => c.1 < d.1) := hs.filter _
  by_cases hv : v = 0#16
  · simp only [Memory.write, hv, if_true]
    exact ⟨hs', fun c hcm => hc c (List.mem_filter.mp hcm).1⟩
  · simp only [Memory.write, hv, if_false]
    refine ⟨Memory.place_sorted hs' fun c hcm => by simpa using (List.mem_filter.mp hcm).2, ?_⟩
    intro c hcm
    rcases Memory.mem_place.mp hcm with rfl | hcm
    · exact ⟨ha, hv⟩
    · exact hc c (List.mem_filter.mp hcm).1

theorem Memory.writeWords_wf {m : Memory} (h : m.wf) (a : Nat) (ws : List Word) : (m.writeWords a ws).wf := by
  induction ws generalizing m a with
  | nil => exact h
  | cons w ws ih =>
    by_cases ha : a < memWords
    · simpa only [Memory.writeWords, ha, if_true] using ih (Memory.write_wf h ha) (a + 1)
    · simpa only [Memory.writeWords, ha, if_false] using h

/-- Words stored from an address upward are read back there; every other address is as it was. -/
theorem Memory.read_writeWords (m : Memory) (a : Nat) (ws : List Word) (b : Nat) (h : a + ws.length ≤ memWords) :
    Memory.read (m.writeWords a ws) b =
      if a ≤ b ∧ b < a + ws.length then ws.getD (b - a) 0 else m.read b := by
  induction ws generalizing m a with
  | nil =>
    have hb : ¬ (a ≤ b ∧ b < a) := by omega
    simp [Memory.writeWords, hb]
  | cons w ws ih =>
    simp only [List.length_cons] at h ⊢
    have ha : a < memWords := by omega
    simp only [Memory.writeWords, ha, if_true]
    rw [ih _ _ (by omega), Memory.read_write]
    by_cases hab : a = b
    · subst hab
      have h1 : ¬ (a + 1 ≤ a ∧ a < a + 1 + ws.length) := by omega
      have h2 : a ≤ a ∧ a < a + (ws.length + 1) := by omega
      rw [if_neg h1, if_pos rfl, if_pos h2, Nat.sub_self, List.getD_cons_zero]
    · by_cases hin : a ≤ b ∧ b < a + (ws.length + 1)
      · have h1 : a + 1 ≤ b ∧ b < a + 1 + ws.length := by omega
        have h3 : b - a = (b - (a + 1)) + 1 := by omega
        rw [if_pos h1, if_pos hin, h3, List.getD_cons_succ]
      · have h1 : ¬ (a + 1 ≤ b ∧ b < a + 1 + ws.length) := by omega
        rw [if_neg h1, if_neg hin, if_neg hab]

theorem Memory.mem_ofWords {a : Nat} {ws : List Word} {c : Nat × Word} (h : c ∈ Memory.ofWords a ws) :
    a ≤ c.1 ∧ c.1 < a + ws.length ∧ c.2 ≠ 0#16 := by
  induction ws generalizing a with
  | nil => simp [Memory.ofWords] at h
  | cons w ws ih =>
    by_cases hw : w = 0#16
    · have h' := ih (by simpa [Memory.ofWords, hw] using h)
      simp only [List.length_cons]
      exact ⟨by omega, by omega, h'.2.2⟩
    · rcases List.mem_cons.mp (by simpa only [Memory.ofWords, hw, if_false] using h) with rfl | h
      · simpa using hw
      · have h' := ih h
        simp only [List.length_cons]
        exact ⟨by omega, by omega, h'.2.2⟩

/-- The memory an image is loaded into is in canonical form. -/
theorem Memory.ofWords_wf {a : Nat} {ws : List Word} (h : a + ws.length ≤ memWords) :
    (Memory.ofWords a ws).wf := by
  refine ⟨?_, fun c hc => ?_⟩
  · clear h
    induction ws generalizing a with
    | nil => simp [Memory.ofWords]
    | cons w ws ih =>
      by_cases hw : w = 0#16
      · simpa [Memory.ofWords, hw] using ih
      · simp only [Memory.ofWords, hw, if_false]
        refine List.pairwise_cons.mpr ⟨fun c hc => ?_, ih⟩
        have := Memory.mem_ofWords hc
        show a < c.1
        omega
  · have := Memory.mem_ofWords hc
    exact ⟨by omega, this.2.2⟩

theorem Memory.reset_wf : State.reset.mem.wf := by decide

end Sys2Proof.Machine
end

