-- ==== Sys2Proof/Laws/PerInstr.lean ====
section
/-! SUPPORT. Statements about every instruction as syntax, with one lemma per constructor. -/

namespace Sys2Proof.Laws.TableRow

/-- The row of the Instruction Table at the instruction's opcode has its arity, one kind for each of its operands, and
a destination in position `a` exactly when the instruction has a destination operand (30_encoding.md R59, R60). -/
def Statement (i : Instr) : Prop :=
  ∃ row, instructionTable[i.opcode]? = some row ∧ row.arity = i.operands.length ∧
    row.kinds.length = i.operands.length ∧
    ((row.kinds.head? = some .dest) = (i.destOperand.isSome = true))

theorem halt : Statement .halt := ⟨_, rfl, rfl, rfl, by simp [Instr.destOperand]⟩
theorem set (a b : Operand) : Statement (.set a b) := ⟨_, rfl, rfl, rfl, by simp [Instr.destOperand]⟩
theorem push (a : Operand) : Statement (.push a) := ⟨_, rfl, rfl, rfl, by simp [Instr.destOperand]⟩
theorem pop (a : Operand) : Statement (.pop a) := ⟨_, rfl, rfl, rfl, by simp [Instr.destOperand]⟩
theorem eq (a b c : Operand) : Statement (.eq a b c) := ⟨_, rfl, rfl, rfl, by simp [Instr.destOperand]⟩
theorem gt (a b c : Operand) : Statement (.gt a b c) := ⟨_, rfl, rfl, rfl, by simp [Instr.destOperand]⟩
theorem jmp (a : Operand) : Statement (.jmp a) := ⟨_, rfl, rfl, rfl, by simp [Instr.destOperand]⟩
theorem jt (a b : Operand) : Statement (.jt a b) := ⟨_, rfl, rfl, rfl, by simp [Instr.destOperand]⟩
theorem jf (a b : Operand) : Statement (.jf a b) := ⟨_, rfl, rfl, rfl, by simp [Instr.destOperand]⟩
theorem add (a b c : Operand) : Statement (.add a b c) := ⟨_, rfl, rfl, rfl, by simp [Instr.destOperand]⟩
theorem mult (a b c : Operand) : Statement (.mult a b c) := ⟨_, rfl, rfl, rfl, by simp [Instr.destOperand]⟩
theorem mod (a b c : Operand) : Statement (.mod a b c) := ⟨_, rfl, rfl, rfl, by simp [Instr.destOperand]⟩
theorem and (a b c : Operand) : Statement (.and a b c) := ⟨_, rfl, rfl, rfl, by simp [Instr.destOperand]⟩
theorem or (a b c : Operand) : Statement (.or a b c) := ⟨_, rfl, rfl, rfl, by simp [Instr.destOperand]⟩
theorem not (a b : Operand) : Statement (.not a b) := ⟨_, rfl, rfl, rfl, by simp [Instr.destOperand]⟩
theorem rmem (a b : Operand) : Statement (.rmem a b) := ⟨_, rfl, rfl, rfl, by simp [Instr.destOperand]⟩
theorem wmem (a b : Operand) : Statement (.wmem a b) := ⟨_, rfl, rfl, rfl, by simp [Instr.destOperand]⟩
theorem call (a : Operand) : Statement (.call a) := ⟨_, rfl, rfl, rfl, by simp [Instr.destOperand]⟩
theorem ret : Statement .ret := ⟨_, rfl, rfl, rfl, by simp [Instr.destOperand]⟩
theorem out (a : Operand) : Statement (.out a) := ⟨_, rfl, rfl, rfl, by simp [Instr.destOperand]⟩
theorem inp (a : Operand) : Statement (.inp a) := ⟨_, rfl, rfl, rfl, by simp [Instr.destOperand]⟩
theorem noop : Statement .noop := ⟨_, rfl, rfl, rfl, by simp [Instr.destOperand]⟩

end Sys2Proof.Laws.TableRow
end

