-- ==== Sys2Proof/Tests/Slice0.lean ====
section
/-! SUPPORT. The model's own tests. Expected results come from spec/95_test_vectors.md (named in each comment) or are
worked out from the rule cited; each runs one step or one operation. The witnesses show that the hypotheses of the
statements can be met. -/

namespace Sys2Proof.Machine

/-- Reset with the words of an image. -/
def booted (ws : List Word) : State := { State.reset with mem := Memory.ofWords 0 ws }

/-- The words stand at address `a`, where the pc is. -/
def bootedAt (a : Nat) (ws : List Word) : State :=
  { State.reset with mem := Memory.ofWords a ws, pc := BitVec.ofNat 16 a }

/-- The next state of an outcome, where it has one. -/
def nextOf (r : Result) : Option State :=
  match r with
  | .next t => some t
  | .fault _ => none
  | .refused _ => none

/-- What a test looks at after one step. -/
def see {α : Type} (s : State) (f : State → α) : Option α := (nextOf (step s)).map f

/-- Status, fault record and pc after a step. -/
def ending (t : State) : Status × FaultRecord × Word := (t.status, t.fault, t.pc)

/-! ### WellFormed: one ill-formed term for each destination check, and the forms that have none -/

theorem test_illformed_set : Instr.wellFormed (.set (.lit 5) (.reg 0)) = false := by decide
theorem test_illformed_pop : Instr.wellFormed (.pop (.lit 0)) = false := by decide
theorem test_illformed_eq : Instr.wellFormed (.eq (.lit 1) (.reg 1) (.reg 2)) = false := by decide
theorem test_illformed_gt : Instr.wellFormed (.gt (.lit 1) (.reg 1) (.reg 2)) = false := by decide
theorem test_illformed_add : Instr.wellFormed (.add (.lit 32767) (.reg 1) (.reg 2)) = false := by decide
theorem test_illformed_mult : Instr.wellFormed (.mult (.lit 1) (.reg 1) (.reg 2)) = false := by decide
theorem test_illformed_mod : Instr.wellFormed (.mod (.lit 1) (.reg 1) (.reg 2)) = false := by decide
theorem test_illformed_and : Instr.wellFormed (.and (.lit 1) (.reg 1) (.reg 2)) = false := by decide
theorem test_illformed_or : Instr.wellFormed (.or (.lit 1) (.reg 1) (.reg 2)) = false := by decide
theorem test_illformed_not : Instr.wellFormed (.not (.lit 1) (.reg 1)) = false := by decide
theorem test_illformed_rmem : Instr.wellFormed (.rmem (.lit 1) (.reg 1)) = false := by decide
theorem test_illformed_in : Instr.wellFormed (.inp (.lit 5)) = false := by decide

/-- The value operands of the other instructions may be literals (R55). -/
theorem test_wellformed_values :
    [Instr.halt, .push (.lit 1), .jmp (.lit 1), .jt (.lit 1) (.lit 2), .jf (.lit 1) (.lit 2), .wmem (.lit 1) (.lit 2),
      .call (.lit 1), .ret, .out (.lit 1), .noop, .set (.reg 7) (.lit 0)].all Instr.wellFormed = true := by decide

/-! ### Decoding: words written out from 30_encoding.md R52, R54 and R59, one per constructor -/

theorem test_decode_halt : decodeWords [0] = some (.halt) := by decide
theorem test_decode_set : decodeWords [1, 32768, 5] = some (.set (.reg 0) (.lit 5)) := by decide
theorem test_decode_push : decodeWords [2, 32771] = some (.push (.reg 3)) := by decide
theorem test_decode_pop : decodeWords [3, 32770] = some (.pop (.reg 2)) := by decide
theorem test_decode_eq : decodeWords [4, 32768, 32769, 5] = some (.eq (.reg 0) (.reg 1) (.lit 5)) := by decide
theorem test_decode_gt : decodeWords [5, 32775, 3, 2] = some (.gt (.reg 7) (.lit 3) (.lit 2)) := by decide
theorem test_decode_jmp : decodeWords [6, 32767] = some (.jmp (.lit 32767)) := by decide
theorem test_decode_jt : decodeWords [7, 32768, 3] = some (.jt (.reg 0) (.lit 3)) := by decide
theorem test_decode_jf : decodeWords [8, 32768, 20] = some (.jf (.reg 0) (.lit 20)) := by decide
theorem test_decode_add : decodeWords [9, 32768, 32768, 3] = some (.add (.reg 0) (.reg 0) (.lit 3)) := by decide
theorem test_decode_mult : decodeWords [10, 32769, 3, 4] = some (.mult (.reg 1) (.lit 3) (.lit 4)) := by decide
theorem test_decode_mod : decodeWords [11, 32768, 17, 5] = some (.mod (.reg 0) (.lit 17) (.lit 5)) := by decide
theorem test_decode_and : decodeWords [12, 32768, 12, 10] = some (.and (.reg 0) (.lit 12) (.lit 10)) := by decide
theorem test_decode_or : decodeWords [13, 32768, 12, 10] = some (.or (.reg 0) (.lit 12) (.lit 10)) := by decide
theorem test_decode_not : decodeWords [14, 32768, 1] = some (.not (.reg 0) (.lit 1)) := by decide
theorem test_decode_rmem : decodeWords [15, 32769, 100] = some (.rmem (.reg 1) (.lit 100)) := by decide
theorem test_decode_wmem : decodeWords [16, 100, 32768] = some (.wmem (.lit 100) (.reg 0)) := by decide
theorem test_decode_call : decodeWords [17, 20] = some (.call (.lit 20)) := by decide
theorem test_decode_ret : decodeWords [18] = some (.ret) := by decide
theorem test_decode_out : decodeWords [19, 65] = some (.out (.lit 65)) := by decide
theorem test_decode_in : decodeWords [20, 32769] = some (.inp (.reg 1)) := by decide
theorem test_decode_noop : decodeWords [21] = some (.noop) := by decide

/-- E1: the boundaries of classification. -/
theorem test_classify_boundaries :
    [0#16, 32767#16, 32768#16, 32771#16, 32775#16, 32776#16, 40000#16, 65535#16].map classify =
      [some (.lit 0), some (.lit 32767), some (.reg 0), some (.reg 3), some (.reg 7), none, none, none] := by decide

/-- R61, R68, R62: refused by name. -/
theorem test_decode_refuses_by_name :
    (decode 22 []).toOption = none ∧ decode 9 [32768, 40000] = .error (.operandFetch 9) ∧
    decode 9 [5, 40000, 40001] = .error (.illegalOperand 40000) ∧ decode 65535 [] = .error (.unknownOpcode 65535) :=
  ⟨by decide, rfl, rfl, rfl⟩

/-- E11: the encoding of `add r0 r0 3`. -/
theorem test_encode_add : encode (.add (.reg 0) (.reg 0) (.lit 3)) = [9, 32768, 32768, 3] := by decide

/-- The table's numbering of bits: word 0 lowest; bits above `nbits` are 0. -/
theorem test_decodeTableWord :
    decodeTableWord 48 (1 + 65536 * 32768 + 4294967296 * 5) = some (.set (.reg 0) (.lit 5)) ∧
    decodeTableWord 16 (1 + 65536 * 32768) = some (.set (.lit 0) (.lit 0)) := by decide

/-! ### One step of each instruction (spec/95_test_vectors.md) -/

/-- V61. -/
theorem test_halt : see (booted [0]) ending = some (.haltedHalt, .clear, 1) := by decide

/-- V62. -/
theorem test_halt_at_last_address : see (bootedAt 32767 [0]) ending = some (.haltedHalt, .clear, 32768) := by decide

/-- V34, first step. -/
theorem test_set : see (booted [1, 32768, 5]) (fun t => (t.readReg 0, t.pc)) = some (5, 3) := by decide

/-- V35. -/
theorem test_set_unreduced : see ((booted [1, 32768, 32769]).writeReg 1 40000) (·.readReg 0) = some 40000 := by decide

/-- V37. -/
theorem test_push_register : see ((booted [2, 32771]).writeReg 3 99) (·.stack) = some [99] := by decide

/-- V40, its second push: STACK_CAPACITY 1. -/
theorem test_push_overflow : see { bootedAt 2 [2, 2] with cfg := ⟨some 1⟩, stack := [1] } (fun t => (t.stack, ending t)) =
    some ([1], .faulted, ⟨some .stackOverflow, 2, 2⟩, 2) := by decide

/-- V39. -/
theorem test_pop : see { booted [3, 32770] with stack := [3, 9] } (fun t => (t.readReg 2, t.stack)) = some (9, [3]) := by decide

/-- V38. -/
theorem test_pop_underflow : see (booted [3, 32768]) ending = some (.faulted, ⟨some .stackUnderflow, 0, 0⟩, 0) := by decide

/-- V28. -/
theorem test_eq_unreduced : see ((booted [4, 32768, 32769, 0]).writeReg 1 32768) (·.readReg 0) = some 0 := by decide

/-- V29. -/
theorem test_eq_same_register : see ((booted [4, 32768, 32768, 32768]).writeReg 0 9) (·.readReg 0) = some 1 := by decide

/-- V31. -/
theorem test_gt_strict : see ((booted [5, 32768, 0, 0]).writeReg 0 7) (·.readReg 0) = some 0 := by decide

/-- V33. -/
theorem test_gt_wide : see ((booted [5, 32768, 32769, 32767]).writeReg 1 40000) (·.readReg 0) = some 1 := by decide

/-- V44, first step. -/
theorem test_jmp_register : see ((booted [6, 32768]).writeReg 0 40000) ending = some (.running, .clear, 40000) := by decide

/-- V43. -/
theorem test_jmp_illegal : see (booted [6, 40000]) ending = some (.faulted, ⟨some .illegalOperand, 0, 40000⟩, 0) := by decide

/-- V45, with another target. -/
theorem test_jt_taken : see ((booted [7, 32768, 7]).writeReg 0 2) (·.pc) = some 7 := by decide

/-- V47. -/
theorem test_jt_falls_through : see (booted [7, 32768, 7]) (·.pc) = some 3 := by decide

/-- V48. -/
theorem test_jf_taken : see (booted [8, 32768, 20]) (·.pc) = some 20 := by decide

/-- V49. -/
theorem test_jf_eager : see (booted [8, 1, 40000]) ending = some (.faulted, ⟨some .illegalOperand, 0, 40000⟩, 0) := by decide

/-- V1. -/
theorem test_add_wraps : see (booted [9, 32768, 32767, 32767]) (·.readReg 0) = some 32766 := by decide

/-- V5: the destination is both sources. -/
theorem test_add_doubles : see ((booted [9, 32768, 32768, 32768]).writeReg 0 20000) (·.readReg 0) = some 7232 := by decide

/-- V6. -/
theorem test_mult_low_bits : see (booted [10, 32768, 200, 200]) (·.readReg 0) = some 7232 := by decide

/-- V7. -/
theorem test_mult_largest : see (booted [10, 32768, 32767, 32767]) (·.readReg 0) = some 1 := by decide

/-- V14. -/
theorem test_mod_reduced : see (((booted [11, 32768, 32769, 32770]).writeReg 1 40000).writeReg 2 50000) (·.readReg 0) = some 7232 := by decide

/-- V15. -/
theorem test_mod_by_zero : see (booted [11, 32768, 5, 0]) (fun t => (t.readReg 0, ending t)) =
    some (0, .faulted, ⟨some .divideByZero, 0, 5⟩, 0) := by decide

/-- V16. -/
theorem test_and : see (booted [12, 32768, 12, 10]) (·.readReg 0) = some 8 := by decide

/-- V17. -/
theorem test_and_reduced : see ((booted [12, 32768, 32769, 32769]).writeReg 1 65535) (·.readReg 0) = some 32767 := by decide

/-- V18. -/
theorem test_or : see (booted [13, 32768, 12, 10]) (·.readReg 0) = some 14 := by decide

/-- V20. -/
theorem test_or_reduced : see ((booted [13, 32768, 32769, 0]).writeReg 1 40000) (·.readReg 0) = some 7232 := by decide

/-- V24. -/
theorem test_not : see (booted [14, 32768, 21845]) (·.readReg 0) = some 10922 := by decide

/-- V25. -/
theorem test_not_wide : see ((booted [14, 32768, 32769]).writeReg 1 32768) (·.readReg 0) = some 32767 := by decide

/-- V56. -/
theorem test_rmem_own_operand : see (booted [15, 32768, 1]) (·.readReg 0) = some 32768 := by decide

/-- V57. -/
theorem test_rmem_out_of_range : see ((booted [15, 32768, 32769]).writeReg 1 40000) (fun t => (t.readReg 0, ending t)) =
    some (0, .faulted, ⟨some .memoryAddressOutOfRange, 0, 40000⟩, 0) := by decide

/-- V58. -/
theorem test_wmem : see ((booted [16, 100, 32768]).writeReg 0 7232) (fun t => (t.readMem 100, t.pc)) = some (7232, 3) := by decide

/-- V59. -/
theorem test_wmem_out_of_range : see ((booted [16, 32769, 7]).writeReg 1 40000) (fun t => (t.mem, ending t)) =
    some ((booted [16, 32769, 7]).mem, .faulted, ⟨some .memoryAddressOutOfRange, 0, 40000⟩, 0) := by decide

/-- V50. -/
theorem test_call : see (bootedAt 3 [17, 20]) (fun t => (t.stack, t.pc)) = some ([5], 20) := by decide

/-- V51. -/
theorem test_call_at_the_end : see (bootedAt 32766 [17, 10]) (fun t => (t.stack, t.pc)) = some ([32768], 10) := by decide

/-- V52. -/
theorem test_ret_empty : see (booted [18]) ending = some (.haltedRetEmpty, .clear, 1) := by decide

/-- V53, first step. -/
theorem test_ret : see { booted [18] with stack := [4] } (fun t => (t.stack, ending t)) = some ([], .running, .clear, 4) := by decide

/-- V64. -/
theorem test_out_unchecked : see ((booted [19, 32768]).writeReg 0 50000) (fun t => (t.output, t.pc)) = some ([50000], 2) := by decide

/-- V63, after an earlier event (R89). -/
theorem test_out_in_order : see { booted [19, 65] with output := [1] } (·.output) = some [1, 65] := by decide

/-- V65. -/
theorem test_in : see { booted [20, 32769] with inq := [104, 10] } (fun t => (t.readReg 1, t.inq, t.pc)) = some (104, [10], 2) := by decide

/-- V66. -/
theorem test_in_waits : see (booted [20, 32769]) (fun t => (t.readReg 1, ending t)) = some (0, .waitingInput, .clear, 0) := by decide

/-- V68, first step. -/
theorem test_noop : see (booted [21, 0]) ending = some (.running, .clear, 1) := by decide

/-- V69, first step. -/
theorem test_noop_at_last_address : see (bootedAt 32767 [21]) ending = some (.running, .clear, 32768) := by decide

/-! ### The checks of a step and their priority (spec/95_test_vectors.md 2.7) -/

/-- V70. -/
theorem test_unknown_opcode : see (booted [22]) ending = some (.faulted, ⟨some .unknownOpcode, 0, 22⟩, 0) := by decide

/-- V72. -/
theorem test_unknown_opcode_at_last_address : see (bootedAt 32767 [22]) ending = some (.faulted, ⟨some .unknownOpcode, 32767, 22⟩, 32767) := by decide

/-- V73. -/
theorem test_operand_past_the_end : see (bootedAt 32767 [19]) ending =
    some (.faulted, ⟨some .operandFetchOutOfRange, 32767, 19⟩, 32767) := by decide

/-- V74. -/
theorem test_operand_fetch_before_destination : see (bootedAt 32766 [1, 5]) ending =
    some (.faulted, ⟨some .operandFetchOutOfRange, 32766, 1⟩, 32766) := by decide

/-- V76. -/
theorem test_first_illegal_operand : see (booted [9, 5, 40000, 40001]) ending = some (.faulted, ⟨some .illegalOperand, 0, 40000⟩, 0) := by decide

/-- V77. -/
theorem test_literal_target : see (booted [1, 5, 5]) ending = some (.faulted, ⟨some .invalidRegisterTarget, 0, 5⟩, 0) := by decide

/-- V78. -/
theorem test_illegal_target : see (booted [1, 32776, 5]) ending = some (.faulted, ⟨some .illegalOperand, 0, 32776⟩, 0) := by decide

/-- V67. -/
theorem test_in_literal_target_before_queue : see (booted [20, 5]) ending = some (.faulted, ⟨some .invalidRegisterTarget, 0, 5⟩, 0) := by decide

/-- V79. -/
theorem test_runoff : see { booted [6, 32768] with pc := 32768 } ending = some (.haltedRunoff, .clear, 32768) := by decide

/-- R74: no step in a terminal status or while waiting. -/
theorem test_no_step_when_not_running :
    step { booted [0] with status := .faulted } = .fault (.runEnded .faulted) ∧
    step { booted [0] with status := .waitingInput } = .fault .waitingForInput := ⟨rfl, rfl⟩

/-- The host's placing of a word: `set` with operand words of zeros runs at reset, to its fault (R79). -/
theorem test_withFetchWord : see (State.reset.withFetchWord 16 1) ending =
    some (.faulted, ⟨some .invalidRegisterTarget, 0, 0⟩, 0) := by decide

/-! ### Memory, image, host actions, decoder, assembler -/

/-- R37, R39: writing 0 removes the cell; the list stays in order. -/
theorem test_memory_canonical :
    Memory.write (Memory.write (Memory.write [] 5 7) 3 9) 5 0 = [(3, 9)] ∧
    Memory.write (Memory.write [] 5 7) 3 9 = [(3, 9), (5, 7)] := by decide

/-- R40: the first byte of a pair is the less significant; an odd byte gives no words. -/
theorem test_image_bytes : wordsOfBytes [0x00, 0x80, 0x15, 0x00] = some [32768, 21] ∧ wordsOfBytes [1] = none := by decide

/-- P8: the host supplies "hi" and a terminator to a CORE that waits; then the `in` takes the first code. -/
theorem test_supply : (nextOf (runEvents [.step, .supply [104, 105, 10], .step] (booted [20, 32768]))).map
    (fun t => (t.readReg 0, t.inq, t.pc, t.status)) = some (104, [105, 10], 2, .running) := by decide

/-- P9: a stop during the wait, the snapshot and the restored instance. -/
theorem test_stop_snapshot_restore :
    ((nextOf (runEvents [.step, .stop] (booted [20, 32768]))).bind snapshot).map (restore Config.source) =
      some (booted [20, 32768]) := by decide

/-- E10. -/
theorem test_disassemble : disassemble [21, 40000, 19, 65] =
    [(0, .instr "NOOP" []), (1, .data 40000), (2, .instr "OUT" [.litChar 65])] := by decide

/-- E10, the default text. -/
theorem test_disassembly_text : (disassemble [21, 40000, 19, 65]).map (lineText RenderText.default) =
    ["0, NOOP", "1, DATA, 40000", "2, OUT, 65 'A'"] := by decide

/-- V80. -/
theorem test_disassemble_illegal : disassemble [9, 32768, 40000, 1] =
    [(0, .data 9), (1, .data 32768), (2, .data 40000), (3, .data 1)] := by decide

/-- V81 and V83. -/
theorem test_disassemble_kinds : disassemble [1, 5, 5, 19, 32771] =
    [(0, .instr "SET" [.lit 5, .lit 5]), (3, .instr "OUT" [.reg 3])] := by decide

/-- R70: NAME is the upper-cased mnemonic of the Instruction Table. -/
theorem test_upper_names : instructionTable.map (fun r => String.ofList (r.mnemonic.toList.map Char.toUpper)) =
    [Instr.halt, .set (.reg 0) (.reg 0), .push (.reg 0), .pop (.reg 0), .eq (.reg 0) (.reg 0) (.reg 0),
      .gt (.reg 0) (.reg 0) (.reg 0), .jmp (.reg 0), .jt (.reg 0) (.reg 0), .jf (.reg 0) (.reg 0),
      .add (.reg 0) (.reg 0) (.reg 0), .mult (.reg 0) (.reg 0) (.reg 0), .mod (.reg 0) (.reg 0) (.reg 0),
      .and (.reg 0) (.reg 0) (.reg 0), .or (.reg 0) (.reg 0) (.reg 0), .not (.reg 0) (.reg 0),
      .rmem (.reg 0) (.reg 0), .wmem (.reg 0) (.reg 0), .call (.reg 0), .ret, .out (.reg 0), .inp (.reg 0),
      .noop].map upperName := by decide

/-- E11: the source's example of assembly. -/
theorem test_assemble : assemble "set r0 5; add r0 r0 3".toList = some [1, 32768, 5, 9, 32768, 32768, 3] := by decide

/-- R65: a literal above 32767, a literal destination, a wrong operand count, a register r8: no statements. -/
theorem test_assemble_refuses :
    ["push 32768", "set 5 5", "add r0 r1", "push r8"].map (fun t => assemble t.toList) = [none, none, none, none] := by
  decide

/-! ### Witnesses: states and operands that meet the hypotheses of the statements -/

/-- Halt, ret, noop and all the encodings: a state that holds the words of an instruction, at both ends of memory. -/
theorem test_witness_holds : (booted [9, 32768, 32769, 3]).holds [9, 32768, 32769, 3] ∧
    (bootedAt 32767 [18]).holds [18] :=
  ⟨⟨⟨rfl, by decide⟩, by decide, by decide⟩, ⟨⟨rfl, by decide⟩, by decide, by decide⟩⟩

/-- StepFaults of opcode 9: no room for its operands at 32765, the last address where the range check bites, and an
illegal third operand word at 32764, the first where it does not. -/
theorem test_witness_StepFaults :
    (bootedAt 32765 [9, 32768, 1]).fetches ∧ (bootedAt 32765 [9, 32768, 1]).readMem 32765 = 9 ∧ 32768 ≤ 32765 + 3 ∧
    (bootedAt 32764 [9, 32775, 0, 32776]).fetches ∧ 32764 + 3 < 32768 ∧
    ((bootedAt 32764 [9, 32775, 0, 32776]).operandWord 1).toNat ≤ 32775 ∧
    ((bootedAt 32764 [9, 32775, 0, 32776]).operandWord 2).toNat ≤ 32775 ∧
    32775 < ((bootedAt 32764 [9, 32775, 0, 32776]).operandWord 3).toNat :=
  ⟨⟨rfl, by decide⟩, by decide, by decide, ⟨rfl, by decide⟩, by decide, by decide, by decide, by decide⟩

/-- PushAppendsValue, CallPushesReturnAddress, RetResumesAfterCall: a finite stack with room for one entry, an
unbounded one, and a full one. -/
theorem test_witness_stack_capacity :
    (∀ n, ({ State.reset with cfg := ⟨some 2⟩, stack := [1] } : State).cfg.stackCapacity = some n →
      ({ State.reset with cfg := ⟨some 2⟩, stack := [1] } : State).stack.length ≠ n) ∧
    (∀ n, State.reset.cfg.stackCapacity = some n → State.reset.stack.length ≠ n) ∧
    ({ State.reset with cfg := ⟨some 1⟩, stack := [1] } : State).cfg.stackCapacity = some [(1 : Word)].length :=
  ⟨(fun n h => by cases h; decide), (fun n h => by simp [State.reset, Config.source] at h), rfl⟩

/-- PopTakesTopOrUnderflows, RetPopsPcOrHalts: a stack of one entry, and the empty one. -/
theorem test_witness_stack_entries :
    ({ State.reset with stack := [32768] } : State).stack = [] ++ [32768] ∧ State.reset.stack = [] := ⟨rfl, rfl⟩

/-- NoopOnlyAdvances: a `noop` at the last address. -/
theorem test_witness_NoopOnlyAdvances : (bootedAt 32767 [21]).holds [21] ∧ (bootedAt 32767 [21]).pc = 32767 :=
  ⟨⟨⟨rfl, by decide⟩, by decide, by decide⟩, rfl⟩

/-- JmpGoesToValue: the first target that runs off the end. -/
theorem test_witness_JmpGoesToValue : State.reset.status = .running ∧
    32768 ≤ ((State.reset.writeReg 0 32768).val (.reg 0)).toNat := by decide

/-- ModWritesRemainderOrDividesByZero: divisor 1 and divisor 0. -/
theorem test_witness_ModWritesRemainder : (State.reset.val (.lit 1)).toNat ≠ 0 ∧ (State.reset.val (.reg 7)).toNat = 0 := by
  decide

/-- RmemReadsWordOrFaults, WmemWritesWordOrFaults: the last address and the first past it. -/
theorem test_witness_addresses : (State.reset.val (.lit 32767)).toNat < 32768 ∧
    32768 ≤ ((State.reset.writeReg 1 32768).val (.reg 1)).toNat := by decide

/-- InTakesInputOrWaits: a queue of one code, and the empty queue. -/
theorem test_witness_InTakesInputOrWaits :
    ({ State.reset with inq := [104] } : State).inq = 104 :: [] ∧ State.reset.inq = [] := ⟨rfl, rfl⟩

/-- ClassifyByRange and ValReadsLiteralOrRegister: each clause at both ends of its range. -/
theorem test_witness_ClassifyByRange :
    (0#16).toNat ≤ 32767 ∧ (32767#16).toNat ≤ 32767 ∧ 32768 ≤ (32768#16).toNat ∧ (32768#16).toNat ≤ 32775 ∧
    (32775#16).toNat ≤ 32775 ∧ 32776 ≤ (32776#16).toNat ∧ 32776 ≤ (65535#16).toNat ∧
    classify 32767 = some (.lit 32767) ∧ classify 32775 = some (.reg 7) ∧
    (32775#16).toNat = 32768 + (7 : Reg).val := by decide

/-- EncodeOfDecode: words that decode, with a word left over. -/
theorem test_witness_EncodeOfDecode : decode 19 [32775, 7] = .ok (.out (.reg 7), [7]) := rfl

/-- UnknownOpcodeFaults: the first unknown opcode, at the last address. -/
theorem test_witness_UnknownOpcodeFaults : (bootedAt 32767 [22]).fetches ∧
    21 < ((bootedAt 32767 [22]).readMem 32767).toNat := ⟨⟨rfl, by decide⟩, by decide⟩

/-- RunoffIsACleanHalt: the first address past memory, and the last value of the pc. -/
theorem test_witness_RunoffIsACleanHalt : State.reset.status = .running ∧ 32768 ≤ (32768#16).toNat ∧
    32768 ≤ (65535#16).toNat := by decide

/-- OperandChecksForEveryOpcode: the row of `in`. -/
theorem test_witness_OperandChecks : (instructionTable[(20#16).toNat]?).map (fun r => r.arity) = some 1 := by decide

/-- StepRunsTheDecodedInstruction, FallThroughIsNextInstruction: an instruction whose last word is the last of memory. -/
theorem test_witness_StepRunsTheDecodedInstruction :
    (bootedAt 32764 [9, 32768, 1, 2]).fetches ∧
    (bootedAt 32764 [9, 32768, 1, 2]).decodeAtPc = .ok (.add (.reg 0) (.lit 1) (.lit 2)) ∧
    see (bootedAt 32764 [9, 32768, 1, 2]) (·.status) = some .running := ⟨⟨rfl, by decide⟩, rfl, by decide⟩

/-- FaultingAndWaitingStepsArePrecise: a step that waits and a step that faults. -/
theorem test_witness_FaultingAndWaitingSteps :
    (∃ t, step (booted [20, 32769]) = .next t ∧ t.status = .waitingInput) ∧
    (∃ t, step (booted [3, 32768]) = .next t ∧ t.status = .faulted) := ⟨⟨_, rfl, rfl⟩, ⟨_, rfl, rfl⟩⟩

/-- OnlyDestinationRegistersChange, FrameOfRegisterWriters, InstructionsDoNotReadStatus: a register write. -/
theorem test_witness_OnlyDestinationRegistersChange :
    Instr.writesRegisterOnly (.set (.reg 0) (.lit 5)) = true ∧
    ∃ t, exec (.set (.reg 0) (.lit 5)) State.reset = .next t ∧ t.readReg 0 ≠ State.reset.readReg 0 :=
  ⟨rfl, _, rfl, by decide⟩

/-- OnlyWmemChangesMemory, FrameOfWmem: a store to the last address. -/
theorem test_witness_OnlyWmemChangesMemory :
    (∃ t, step (booted [16, 32767, 65]) = .next t ∧ t.readMem 32767 ≠ (booted [16, 32767, 65]).readMem 32767) ∧
    ∃ t, exec (.wmem (.lit 32767) (.lit 65)) State.reset = .next t := ⟨⟨_, rfl, by decide⟩, ⟨_, rfl⟩⟩

/-- OnlyStackInstructionsChangeStack: a push. -/
theorem test_witness_OnlyStackInstructionsChangeStack :
    ∃ t, step (booted [2, 7]) = .next t ∧ t.stack ≠ (booted [2, 7]).stack := ⟨_, rfl, by decide⟩

/-- PortsMoveOneValueInOrder, InvariantKeptByEveryStep: a step that puts a value out, from a state of the invariant. -/
theorem test_witness_PortsMoveOneValueInOrder :
    (booted [19, 65]).Inv ∧ ∃ t, step (booted [19, 65]) = .next t ∧ t.output = [65] :=
  ⟨⟨by decide, by decide, by decide, by decide, by decide⟩, _, rfl, by decide⟩

/-- AluResultsAreBelow32768: a sum of register values above 32767. -/
theorem test_witness_AluResultsAreBelow32768 :
    ∃ t, exec (.add (.reg 0) (.reg 1) (.reg 1)) (State.reset.writeReg 1 65535) = .next t ∧
      (State.reset.writeReg 1 65535).status = .running ∧ t.status = .running := ⟨_, rfl, by decide, by decide⟩

/-- WideValuesOnlyByCopying: each way a register comes to hold 40000. -/
theorem test_witness_WideValuesOnlyByCopying :
    see (booted [15, 32768, 3, 40000]) (·.readReg 0) = some 40000 ∧
    see { booted [3, 32768] with stack := [40000] } (·.readReg 0) = some 40000 ∧
    see ((booted [1, 32768, 32769]).writeReg 1 40000) (·.readReg 0) = some 40000 ∧
    see { booted [20, 32768] with inq := [40000] } (·.readReg 0) = some 40000 := by decide

/-- FrameOfJumpsAndNoop, FrameOfStackInstructions, FrameOfSystemInstructions: each has a next state. -/
theorem test_witness_frames :
    (∃ t, exec (.jt (.lit 1) (.lit 9)) State.reset = .next t) ∧ (∃ t, exec .noop State.reset = .next t) ∧
    (∃ t, exec (.pop (.reg 3)) { State.reset with stack := [1] } = .next t) ∧ (∃ t, exec .ret State.reset = .next t) ∧
    (∃ t, exec (.inp (.reg 3)) State.reset = .next t) ∧ (∃ t, exec .halt State.reset = .next t) :=
  ⟨⟨_, rfl⟩, ⟨_, rfl⟩, ⟨_, rfl⟩, ⟨_, rfl⟩, ⟨_, rfl⟩, ⟨_, rfl⟩⟩

/-- InvariantKeptByEveryRun: a run of the CORE and its host through a wait. -/
theorem test_witness_InvariantKeptByEveryRun :
    (booted [20, 32768]).Inv ∧
    ∃ t, runEvents [.step, .supply [7], .step, .stop] (booted [20, 32768]) = .next t ∧ t.status = .stopped :=
  ⟨⟨by decide, by decide, by decide, by decide, by decide⟩, _, rfl, by decide⟩

/-- InvariantHoldsAtReset, ResetLoadsImageAndClearsState: an image, and an image of one word too many. -/
theorem test_witness_reset : (∃ t, reset ⟨some 4⟩ [1, 0, 65535] = .next t) ∧ [1#16, 0#16, 65535#16].length ≤ 32768 ∧
    32768 < (List.replicate 32769 0#16).length := ⟨⟨_, rfl⟩, by decide, by rw [List.length_replicate]; decide⟩

/-- SupplyAppendsAndResumes, WaitingInExecutesAfterSupply: a CORE that waits, in a state of the invariant. -/
theorem test_witness_waiting :
    ({ booted [20, 32768] with status := .waitingInput } : State).Inv ∧
    ({ booted [20, 32768] with status := .waitingInput } : State).status = .waitingInput ∧ [7#16] ≠ [] ∧
    ∃ t, supplyInput [7] { booted [20, 32768] with status := .waitingInput } = .next t :=
  ⟨⟨by decide, by decide, by decide, by decide, by decide⟩, rfl, by decide, _, rfl⟩

/-- StopActsOnLiveCoresOnly, RestoreOfSnapshotIsTheMachine, TerminalStatusesAreFinal: live, stopped and other statuses,
and events that leave a terminal CORE. -/
theorem test_witness_statuses : State.reset.status = .running ∧ State.reset.status ≠ .stopped ∧
    ({ State.reset with status := .stopped } : State).status = .stopped ∧
    ({ State.reset with status := .faulted } : State).status ≠ .running ∧
    ({ State.reset with status := .faulted } : State).status ≠ .waitingInput ∧
    ∃ t, runEvents [.stop, .stop] { State.reset with status := .faulted } = .next t :=
  ⟨rfl, by decide, rfl, by decide, by decide, _, rfl⟩

/-- RetResumesAfterCall: a call, and a state whose stack is as the call left it. -/
theorem test_witness_RetResumesAfterCall :
    ∃ t, exec (.call (.lit 9)) State.reset = .next t ∧ ({ State.reset with stack := [2] } : State).stack = t.stack :=
  ⟨_, rfl, rfl⟩

/-- PopsReverseThePushes: an unbounded stack, a finite one that three entries fill, and the first and last pops. -/
theorem test_witness_PopsReverseThePushes :
    (∀ n, State.reset.cfg.stackCapacity = some n → State.reset.stack.length + 3 ≤ n) ∧
    (∀ n, ({ State.reset with cfg := ⟨some 3⟩ } : State).cfg.stackCapacity = some n →
      ({ State.reset with cfg := ⟨some 3⟩ } : State).stack.length + [Operand.lit 1, .lit 2, .lit 3].length ≤ n) ∧
    Operand.lit 3 ∈ [Operand.lit 1, .lit 2, .lit 3][3 - 1]? ∧ Operand.lit 1 ∈ [Operand.lit 1, .lit 2, .lit 3][3 - 3]? :=
  ⟨(fun n h => by simp [State.reset, Config.source] at h), (fun n h => by cases h; decide), by decide, by decide⟩

/-- StaticDecoderRendersPosition: a position inside an image, decodable and not. -/
theorem test_witness_StaticDecoder : List.drop 1 [22#16, 19#16, 65#16] = 19#16 :: [65#16] ∧
    decode 19 [65] = .ok (.out (.lit 65), []) ∧ decode 22 [19, 65] = .error (.unknownOpcode 22) ∧
    Instr.push (.lit 65) ≠ .out (.lit 65) := ⟨rfl, rfl, rfl, by decide⟩

/-- DisassemblyCoversTheImage: a line of a scan. -/
theorem test_witness_Disassembly : (1, Item.data 40000) ∈ scan [21, 40000] := by decide

end Sys2Proof.Machine
end

section
/-! The machine's invariant (`State.Inv`) is kept by every step: first what gives it for each way a state can end up
(still running, faulted, halted, waiting), then the effects of an action, then a step. -/

namespace Sys2Proof.Machine

variable {s t : State}

/-! ### The invariant of a running state -/

theorem State.Inv.fault_eq_clear (h : s.Inv) (hs : s.status = .running) : s.fault = FaultRecord.clear := by
  simpa [State.faultConsistent, hs] using h.fault

/-- While a CORE runs, the invariant is about its memory, its stack and its fault record only. -/
theorem State.Inv.of_running (hm : t.mem.wf) (hk : t.stackFits) (hs : t.status = .running)
    (hf : t.fault = FaultRecord.clear) : t.Inv where
  memory := hm
  stack := hk
  fault := by simpa [State.faultConsistent, hs] using hf
  wait := by simp [State.waitConsistent, hs]
  halt := by simp [State.haltConsistent, hs]

/-! ### The stack within its capacity -/

/-- A stack that is not full has room for one entry more (R93, R100). -/
theorem State.stackFits_push (h : s.stackFits) (hf : s.stackFull = false) (v : Word) : (s.push v).stackFits := by
  intro n hn
  have hle : s.stack.length ≤ n := h n hn
  have hne : s.stack.length ≠ n := by
    rintro rfl
    simp [(State.stackFull_iff s).mpr hn] at hf
  simp only [State.push_stack, List.length_append, List.length_singleton]
  omega

theorem State.stackFits_dropTop (h : s.stackFits) : s.dropTop.stackFits := by
  intro n hn
  have hle : s.stack.length ≤ n := h n hn
  simp only [State.dropTop_stack, List.length_dropLast]
  omega

/-! ### The invariant at the ends of a run and in a wait -/

/-- A fatal error keeps the invariant: its record names a cause and the pc, which stays (R116). -/
theorem State.Inv.raise (h : s.Inv) (c : FaultCause) (w : Word) : (s.raise c w).Inv where
  memory := h.memory
  stack := h.stack
  fault := by simp [State.faultConsistent]
  wait := by simp [State.waitConsistent]
  halt := by simp [State.haltConsistent]

/-- A running CORE comes to a clean halt whose reason, where the state keeps one, holds in it (R75, R101, R114). -/
theorem State.Inv.halt_of_isCleanHalt (h : s.Inv) (hs : s.status = .running) {r : Status}
    (hr : r.isCleanHalt = true) (hc : (s.halt r).haltConsistent) : (s.halt r).Inv where
  memory := h.memory
  stack := h.stack
  fault := by
    have hne : r ≠ .faulted := by rintro rfl; cases hr
    simpa [State.faultConsistent, hne] using h.fault_eq_clear hs
  wait := by
    have hne : r ≠ .waitingInput := by rintro rfl; cases hr
    simp [State.waitConsistent, hne]
  halt := hc

/-- A running CORE whose pc moves on keeps the invariant. -/
theorem State.Inv.advance (h : s.Inv) (hs : s.status = .running) (n : Nat) : (s.advance n).Inv :=
  .of_running h.memory h.stack hs (h.fault_eq_clear hs)

/-- A CORE that waits at a valid `in` with an empty queue is in the invariant (R90). -/
theorem State.Inv.waitInput (h : s.Inv) (hf : s.fetches) {r : Reg} (hd : s.decodeAtPc = .ok (.inp (.reg r)))
    (hq : s.inq = []) : s.waitInput.Inv where
  memory := h.memory
  stack := h.stack
  fault := by simpa [State.faultConsistent] using h.fault_eq_clear hf.1
  wait := fun _ => ⟨hq, hf.2, r, congrArg Except.toOption hd⟩
  halt := by simp [State.haltConsistent]

/-! ### Every effect of an action, and every step -/

/-- The action of the instruction at the pc keeps the invariant, whichever of its effects it has. -/
theorem ExecEffect.inv {i : Instr} (h : s.Inv) (hf : s.fetches) (hd : s.decodeAtPc = .ok i)
    (he : ExecEffect s i t) : t.Inv := by
  have hs : s.status = .running := hf.1
  have hclear : s.fault = FaultRecord.clear := h.fault_eq_clear hs
  cases he with
  | raise i c w => exact h.raise c w
  | write | jmp | jt | jf | noop | out | take => exact .of_running h.memory h.stack hs hclear
  | halt => exact (h.advance hs 0).halt_of_isCleanHalt hs rfl (by simp [State.haltConsistent])
  | retEmpty hemp =>
    exact (h.advance hs 0).halt_of_isCleanHalt hs rfl (by simpa [State.haltConsistent] using hemp)
  | wait r hq => exact h.waitInput hf hd hq
  | push a hroom => exact .of_running h.memory (State.stackFits_push h.stack hroom (s.val a)) hs hclear
  | call a hroom => exact .of_running h.memory (State.stackFits_push h.stack hroom (s.nextPc 1)) hs hclear
  | pop | ret => exact .of_running h.memory (State.stackFits_dropTop h.stack) hs hclear
  | wmem a b ha => exact .of_running (Memory.write_wf h.memory ha) h.stack hs hclear

/-- The three kinds of step, each of which keeps the invariant. -/
theorem step_preserves_inv (h : s.Inv) (hstep : step s = .next t) : t.Inv := by
  obtain ⟨hs, ⟨hpc, rfl⟩ | ⟨-, e, -, rfl⟩ | ⟨hf, i, hd, hexec⟩⟩ := step_cases hstep
  · exact h.halt_of_isCleanHalt hs rfl (by simpa [State.haltConsistent] using hpc)
  · exact h.raise _ _
  · exact (exec_effect hexec).inv h hf hd

/-- Settles O47, by the kinds of step and, for an action, its effects. -/
theorem invariantKeptByEveryStep : Obligations.InvariantKeptByEveryStep :=
  fun _ _ => step_preserves_inv

end Sys2Proof.Machine
end

section
/-! What each effect of an action does to one part of the state, said once per part: the registers, the memory, the
stack, the queue, the output log, and the status with the fault record. -/

namespace Sys2Proof.Machine

variable {s t : State} {i : Instr}

/-! ### Reads that an update does not reach -/

@[simp] theorem State.readReg_advance (s : State) (n : Nat) (r : Reg) : (s.advance n).readReg r = s.readReg r := rfl

theorem State.readReg_writeReg_ne (s : State) {q r : Reg} (v : Word) (h : q ≠ r) :
    (s.writeReg q v).readReg r = s.readReg r := by
  rw [State.readReg_writeReg, if_neg h]

theorem State.val_congr (h : t.regs = s.regs) (o : Operand) : t.val o = s.val o := by
  cases o with
  | lit v => rfl
  | reg q => simp [State.readReg, h]

/-! ### The parts of the state under an effect -/

theorem ExecEffect.cfg_eq (he : ExecEffect s i t) : t.cfg = s.cfg := by
  cases he <;> rfl

/-- A register that the destination operand does not name is unchanged (R23). -/
theorem ExecEffect.readReg_eq (he : ExecEffect s i t) {r : Reg} (hr : i.destOperand ≠ some (.reg r)) :
    t.readReg r = s.readReg r := by
  cases he with
  | write i q v hd hw => exact State.readReg_writeReg_ne s v (by rintro rfl; exact hr hd)
  | take q c rest hq => exact State.readReg_writeReg_ne _ c (by rintro rfl; exact hr rfl)
  | pop q v hv => exact State.readReg_writeReg_ne _ v (by rintro rfl; exact hr rfl)
  | raise | jmp | jt | jf | noop | halt | out | wait | push | call | ret | retEmpty | wmem => rfl

/-- Only `wmem` changes the memory (R38). -/
theorem ExecEffect.mem_eq (he : ExecEffect s i t) (hi : ∀ a b, i ≠ .wmem a b) : t.mem = s.mem := by
  cases he with
  | wmem a b => exact absurd rfl (hi a b)
  | raise | write | jmp | jt | jf | noop | halt | out | wait | take | push | call | pop | ret | retEmpty => rfl

/-- The stack stays, or one of the four stack instructions adds or takes its tail entry (R30). -/
theorem ExecEffect.stack_cases (he : ExecEffect s i t) :
    t.stack = s.stack ∨
    (∃ a, i = .push a ∧ t.stack = s.stack ++ [s.val a]) ∨
    (∃ a, i = .call a ∧ t.stack = s.stack ++ [s.nextPc 1]) ∨
    (∃ r v, i = .pop (.reg r) ∧ s.stack = t.stack ++ [v] ∧ t.readReg r = v) ∨
    (∃ v, i = .ret ∧ s.stack = t.stack ++ [v] ∧ t.pc = v) := by
  cases he with
  | push a hf => exact .inr (.inl ⟨a, rfl, rfl⟩)
  | call a hf => exact .inr (.inr (.inl ⟨a, rfl, rfl⟩))
  | pop r v hv =>
    exact .inr (.inr (.inr (.inl
      ⟨r, v, rfl, (List.dropLast_append_getLast? v hv).symm, State.readReg_writeReg_self s.dropTop r v⟩)))
  | ret v hv => exact .inr (.inr (.inr (.inr ⟨v, rfl, (List.dropLast_append_getLast? v hv).symm, rfl⟩)))
  | raise | write | jmp | jt | jf | noop | halt | out | wait | take | retEmpty | wmem => exact .inl rfl

/-- The queue stays, or `in` takes its head into the register (R31, R90). -/
theorem ExecEffect.inq_cases (he : ExecEffect s i t) :
    t.inq = s.inq ∨ ∃ r c, i = .inp (.reg r) ∧ s.inq = c :: t.inq ∧ t.readReg r = c := by
  cases he with
  | take r c rest hq => exact .inr ⟨r, c, rfl, hq, State.readReg_writeReg_self (s.setInq rest) r c⟩
  | raise | write | jmp | jt | jf | noop | halt | out | wait | push | call | pop | ret | retEmpty | wmem =>
    exact .inl rfl

/-- The output log stays, or `out` adds its value at the end (R20, R89). -/
theorem ExecEffect.output_cases (he : ExecEffect s i t) :
    t.output = s.output ∨ ∃ a, i = .out a ∧ t.output = s.output ++ [s.val a] := by
  cases he with
  | out a => exact .inr ⟨a, rfl, rfl⟩
  | raise | write | jmp | jt | jf | noop | halt | wait | take | push | call | pop | ret | retEmpty | wmem =>
    exact .inl rfl

/-- The status and the fault record stay, or the run ends or waits: by a fatal error, which changes nothing else, by
`halt`, by a `ret` on the empty stack, or at an `in` (R83). -/
theorem ExecEffect.status_cases (he : ExecEffect s i t) :
    (t.status = s.status ∧ t.fault = s.fault) ∨
    (∃ c w, t = s.raise c w) ∨
    (i = .halt ∧ t.status = .haltedHalt ∧ t.fault = s.fault) ∨
    (i = .ret ∧ t.status = .haltedRetEmpty ∧ t.fault = s.fault ∧ t.stack = s.stack) ∨
    (∃ r, i = .inp (.reg r) ∧ t = s.waitInput) := by
  cases he with
  | raise i c w => exact .inr (.inl ⟨c, w, rfl⟩)
  | halt => exact .inr (.inr (.inl ⟨rfl, rfl, rfl⟩))
  | retEmpty hs => exact .inr (.inr (.inr (.inl ⟨rfl, rfl, rfl, rfl⟩)))
  | wait r hq => exact .inr (.inr (.inr (.inr ⟨r, rfl, rfl⟩)))
  | write | jmp | jt | jf | noop | out | take | push | call | pop | ret | wmem => exact .inl ⟨rfl, rfl⟩

theorem ExecEffect.readMem_eq (he : ExecEffect s i t) (hi : ∀ a b, i ≠ .wmem a b) (x : Nat) :
    t.readMem x = s.readMem x :=
  congrArg (Memory.read · x) (he.mem_eq hi)

theorem ExecEffect.inq_eq (he : ExecEffect s i t) (hi : ∀ a, i ≠ .inp a) : t.inq = s.inq :=
  he.inq_cases.resolve_right fun ⟨r, _, h, _⟩ => hi (.reg r) h

theorem ExecEffect.output_eq (he : ExecEffect s i t) (hi : ∀ a, i ≠ .out a) : t.output = s.output :=
  he.output_cases.resolve_right fun ⟨a, h, _⟩ => hi a h

/-! ### A change in a step comes from its instruction -/

/-- The runoff halt and a fatal error write the status and the fault record only, so what else changes in a step, the
instruction at the pc has changed (R75, R83, R116). -/
theorem step_exec_of_changed {α : Type} (f : State → α) (hhalt : ∀ r, f (s.halt r) = f s)
    (hraise : ∀ c w, f (s.raise c w) = f s) (h : step s = .next t) (hne : f t ≠ f s) :
    ∃ i, s.decodeAtPc = .ok i ∧ exec i s = .next t := by
  obtain ⟨-, ⟨-, rfl⟩ | ⟨-, e, -, rfl⟩ | ⟨-, i, hd, hexec⟩⟩ := step_cases h
  · exact absurd (hhalt _) hne
  · exact absurd (hraise _ _) hne
  · exact ⟨i, hd, hexec⟩

end Sys2Proof.Machine
end

section
/-! What may change what (10_state.md R20, R23, R30, R31): the registers, the stack and the ports. -/

namespace Sys2Proof.Machine

/-- Settles O35: a register the destination operand does not name is unchanged by every effect. -/
theorem onlyDestinationRegistersChange : Obligations.OnlyDestinationRegistersChange := by
  intro i s t r hexec hne
  by_contra hd
  exact hne ((exec_effect hexec).readReg_eq hd)

/-- Settles O37, by the effects that reach the stack. -/
theorem onlyStackInstructionsChangeStack : Obligations.OnlyStackInstructionsChangeStack := by
  intro s t hstep hne
  obtain ⟨i, hd, hexec⟩ := step_exec_of_changed State.stack (fun _ => rfl) (fun _ _ => rfl) hstep hne
  obtain heq | ⟨a, rfl, hst⟩ | ⟨a, rfl, hst⟩ | ⟨r, v, rfl, hst, hr⟩ | ⟨v, rfl, hst, hpc⟩ :=
    (exec_effect hexec).stack_cases
  · exact absurd heq hne
  · exact .inl ⟨a, hd, hst⟩
  · exact .inr (.inl ⟨a, hd, hst⟩)
  · exact .inr (.inr (.inl ⟨r, v, hd, hst, hr⟩))
  · exact .inr (.inr (.inr ⟨v, hd, hst, hpc⟩))

/-- Settles O38, by the effects that reach the queue and those that reach the output log. -/
theorem portsMoveOneValueInOrder : Obligations.PortsMoveOneValueInOrder := by
  intro s t hstep
  refine ⟨or_iff_not_imp_left.mpr fun hne => ?_, or_iff_not_imp_left.mpr fun hne => ?_⟩
  · obtain ⟨i, hd, hexec⟩ := step_exec_of_changed State.inq (fun _ => rfl) (fun _ _ => rfl) hstep hne
    obtain ⟨r, c, rfl, hq, hr⟩ := (exec_effect hexec).inq_cases.resolve_left hne
    exact ⟨r, c, hd, hq, hr⟩
  · obtain ⟨i, hd, hexec⟩ := step_exec_of_changed State.output (fun _ => rfl) (fun _ _ => rfl) hstep hne
    obtain ⟨a, rfl, ho⟩ := (exec_effect hexec).output_cases.resolve_left hne
    exact ⟨a, hd, ho⟩

end Sys2Proof.Machine
end

section
/-! The frames of the instructions, group by group: what is unchanged when an action has a next state. -/

namespace Sys2Proof.Machine

variable {s t : State}

/-- Settles O42: a register writer has two effects, a fatal error and its write. -/
theorem frameOfRegisterWriters : Obligations.FrameOfRegisterWriters := by
  intro i s t hw hexec
  have he := exec_effect hexec
  refine ⟨fun r hr => he.readReg_eq hr, ?_⟩
  cases he with
  | raise i c w => exact ⟨fun _ => rfl, rfl, rfl, rfl, rfl, .inr ⟨rfl, rfl, rfl⟩⟩
  | write i r v hd _ => exact ⟨fun _ => rfl, rfl, rfl, rfl, rfl, .inl ⟨rfl, rfl⟩⟩
  | jmp | jt | jf | noop | halt | out | wait | take | push | call | pop | ret | retEmpty | wmem => cases hw

/-- The jumps and `noop` raise no fatal error: all they do is set the pc (R91, R97, R98, R99). -/
theorem exec_jump_or_noop_eq_setPc {i : Instr}
    (hi : (∃ a, i = .jmp a) ∨ (∃ a b, i = .jt a b) ∨ (∃ a b, i = .jf a b) ∨ i = .noop) (h : exec i s = .next t) :
    ∃ p, t = s.setPc p := by
  obtain ⟨a, rfl⟩ | ⟨a, b, rfl⟩ | ⟨a, b, rfl⟩ | rfl := hi
  · cases h; exact ⟨_, rfl⟩
  · simp only [exec, execJt] at h
    split at h <;> cases h <;> exact ⟨_, rfl⟩
  · simp only [exec, execJf] at h
    split at h <;> cases h <;> exact ⟨_, rfl⟩
  · cases h; exact ⟨_, rfl⟩

/-- Settles O43: these instructions only set the pc. -/
theorem frameOfJumpsAndNoop : Obligations.FrameOfJumpsAndNoop := by
  intro i s t hi hexec
  obtain ⟨p, rfl⟩ := exec_jump_or_noop_eq_setPc hi hexec
  exact ⟨fun _ => rfl, fun _ => rfl, rfl, rfl, rfl, rfl, rfl, rfl⟩

/-- Settles O44, part by part of the state. -/
theorem frameOfStackInstructions : Obligations.FrameOfStackInstructions := by
  intro i s t hi hexec
  have he := exec_effect hexec
  have hdest : ∀ r, i ≠ .pop (.reg r) → i.destOperand ≠ some (.reg r) := by
    obtain ⟨a, rfl⟩ | ⟨a, rfl⟩ | ⟨a, rfl⟩ | rfl := hi <;> simp [Instr.destOperand]
  have hothers : i ≠ .halt ∧ (∀ a b, i ≠ .wmem a b) ∧ (∀ a, i ≠ .inp a) ∧ ∀ a, i ≠ .out a := by
    obtain ⟨a, rfl⟩ | ⟨a, rfl⟩ | ⟨a, rfl⟩ | rfl := hi <;> simp
  obtain ⟨hhalt, hwmem, hinp, hout⟩ := hothers
  refine ⟨fun r hr => he.readReg_eq (hdest r hr), he.readMem_eq hwmem, ?_, he.inq_eq hinp, he.output_eq hout,
    he.cfg_eq, ?_⟩
  · obtain heq | ⟨a, -, hst⟩ | ⟨a, -, hst⟩ | ⟨r, v, -, hst, -⟩ | ⟨v, -, hst, -⟩ := he.stack_cases
    · exact .inl heq
    · exact .inr (.inl ⟨_, hst⟩)
    · exact .inr (.inl ⟨_, hst⟩)
    · exact .inr (.inr ⟨v, hst⟩)
    · exact .inr (.inr ⟨v, hst⟩)
  · obtain hkept | ⟨c, w, rfl⟩ | ⟨h, -⟩ | hret | ⟨r, h, -⟩ := he.status_cases
    · exact .inl hkept
    · exact .inr (.inl ⟨rfl, rfl, rfl, rfl⟩)
    · exact absurd h hhalt
    · exact .inr (.inr hret)
    · exact absurd h (hinp _)

/-- Settles O45: `wmem` has two effects, a fatal error and its store. -/
theorem frameOfWmem : Obligations.FrameOfWmem := by
  intro a b s t hexec
  cases exec_effect hexec with
  | raise i c w =>
    exact ⟨fun _ _ => rfl, fun _ => rfl, rfl, rfl, rfl, rfl, .inr ⟨rfl, rfl, fun _ => rfl⟩⟩
  | write i r v hd hw => cases hw
  | wmem a b ha =>
    exact ⟨fun x hx => Memory.read_write_ne s.mem (s.val b) hx.symm, fun _ => rfl, rfl, rfl, rfl, rfl,
      .inl ⟨rfl, rfl⟩⟩

/-- An `in` refuses a literal destination, waits on the empty queue, or takes its head (R79, R90). -/
theorem execIn_cases {a : Operand} (h : exec (.inp a) s = .next t) :
    (∃ v, a = .lit v ∧ t = s.raise .invalidRegisterTarget (v.setWidth 16)) ∨
    ∃ r, a = .reg r ∧ ((s.inq = [] ∧ t = s.waitInput) ∨
      ∃ c rest, s.inq = c :: rest ∧ t = ((s.setInq rest).writeReg r c).advance 1) := by
  obtain hlit | ⟨r, rfl, hact⟩ := withDest_cases h
  · exact .inl hlit
  · refine .inr ⟨r, rfl, ?_⟩
    split at hact <;> cases hact
    · rename_i hq; exact .inl ⟨hq, rfl⟩
    · rename_i c rest hq; exact .inr ⟨c, rest, hq, rfl⟩

/-- Settles O46: the parts that every effect keeps, then the status and the fault record of each instruction. -/
theorem frameOfSystemInstructions : Obligations.FrameOfSystemInstructions := by
  intro i s t hi hexec
  have he := exec_effect hexec
  have hdest : ∀ r, i ≠ .inp (.reg r) → i.destOperand ≠ some (.reg r) := by
    obtain rfl | ⟨a, rfl⟩ | ⟨a, rfl⟩ := hi <;> simp [Instr.destOperand]
  have hothers : (∀ a b, i ≠ .wmem a b) ∧ (∀ a, i ≠ .push a) ∧ (∀ a, i ≠ .call a) ∧ (∀ a, i ≠ .pop a) ∧ i ≠ .ret := by
    obtain rfl | ⟨a, rfl⟩ | ⟨a, rfl⟩ := hi <;> simp
  obtain ⟨hwmem, hpush, hcall, hpop, hret⟩ := hothers
  refine ⟨fun r hr => he.readReg_eq (hdest r hr), he.readMem_eq hwmem, ?_, he.cfg_eq, ?_, ?_, ?_⟩
  · obtain heq | ⟨a, h, -⟩ | ⟨a, h, -⟩ | ⟨r, v, h, -⟩ | ⟨v, h, -⟩ := he.stack_cases
    · exact heq
    · exact absurd h (hpush a)
    · exact absurd h (hcall a)
    · exact absurd h (hpop _)
    · exact absurd h hret
  · exact he.inq_cases.imp_right fun ⟨r, c, h, hq, _⟩ => ⟨r, c, h, hq⟩
  · exact he.output_cases.imp_right fun ⟨a, h, ho⟩ => ⟨a, _, h, ho⟩
  · obtain rfl | ⟨a, rfl⟩ | ⟨a, rfl⟩ := hi
    · cases hexec; exact ⟨.inl rfl, .inr (.inl ⟨rfl, rfl⟩)⟩
    · cases hexec; exact ⟨.inl rfl, .inl rfl⟩
    · obtain ⟨v, rfl, rfl⟩ | ⟨r, rfl, ⟨-, rfl⟩ | ⟨c, rest, -, rfl⟩⟩ := execIn_cases hexec
      · exact ⟨.inr ⟨⟨v, rfl⟩, rfl⟩, .inr (.inr ⟨⟨_, rfl⟩, .inr rfl⟩)⟩
      · exact ⟨.inl rfl, .inr (.inr ⟨⟨_, rfl⟩, .inl rfl⟩)⟩
      · exact ⟨.inl rfl, .inl rfl⟩

end Sys2Proof.Machine
end

section
/-! No instruction reads the status, the fault record or the output log (10_state.md R20, R34): an action on two states
that differ only there does the same to both, shown form by form of the meanings. -/

namespace Sys2Proof.Machine

/-- The state with another status, fault record and output log. -/
def State.withRecord (s : State) (st : Status) (f : FaultRecord) (o : List Word) : State :=
  { s with status := st, fault := f, output := o }

/-- What `t` is to `s`, `u` is to `s'`: the same contents, the same values put out, and the status and the fault record
each kept on both sides or the same on both. -/
structure SameEffect (s s' t u : State) : Prop where
  regs : u.regs = t.regs
  mem : u.mem = t.mem
  stack : u.stack = t.stack
  pc : u.pc = t.pc
  inq : u.inq = t.inq
  cfg : u.cfg = t.cfg
  output : ∃ e, t.output = s.output ++ e ∧ u.output = s'.output ++ e
  status : (t.status = s.status ∧ u.status = s'.status) ∨ u.status = t.status
  fault : (t.fault = s.fault ∧ u.fault = s'.fault) ∨ u.fault = t.fault

/-- Whenever `x` is a next state of `s`, `y` is one of `s'` that comes about by the same effect. -/
def SameResult (s s' : State) (x y : Result) : Prop :=
  ∀ t, x = .next t → ∃ u, y = .next u ∧ SameEffect s s' t u

section
variable {s : State} {st : Status} {f : FaultRecord} {o : List Word}

/-! ### The ways an action ends -/

/-- An effect outside the record. -/
theorem SameResult.kept {t : State} (hs : t.status = s.status) (hf : t.fault = s.fault) (ho : t.output = s.output) :
    SameResult s (s.withRecord st f o) (.next t) (.next (t.withRecord st f o)) := by
  rintro _ ⟨⟩
  exact ⟨_, rfl, rfl, rfl, rfl, rfl, rfl, rfl, ⟨[], by simp [ho], by simp [State.withRecord]⟩, .inl ⟨hs, rfl⟩,
    .inl ⟨hf, rfl⟩⟩

theorem SameResult.raise (c : FaultCause) (w : Word) :
    SameResult s (s.withRecord st f o) (.next (s.raise c w)) (.next ((s.withRecord st f o).raise c w)) := by
  rintro _ ⟨⟩
  exact ⟨_, rfl, rfl, rfl, rfl, rfl, rfl, rfl, ⟨[], by simp, by simp⟩, .inr rfl, .inr rfl⟩

/-- A halt after an effect outside the record; a wait is one too. -/
theorem SameResult.halt {t : State} (hf : t.fault = s.fault) (ho : t.output = s.output) (r : Status) :
    SameResult s (s.withRecord st f o) (.next (t.halt r)) (.next ((t.withRecord st f o).halt r)) := by
  rintro _ ⟨⟩
  exact ⟨_, rfl, rfl, rfl, rfl, rfl, rfl, rfl, ⟨[], by simp [ho], by simp [State.withRecord]⟩, .inr rfl,
    .inl ⟨hf, rfl⟩⟩

theorem SameResult.emit (v : Word) (n : Nat) :
    SameResult s (s.withRecord st f o) (.next ((s.emit v).advance n))
      (.next (((s.withRecord st f o).emit v).advance n)) := by
  rintro _ ⟨⟩
  exact ⟨_, rfl, rfl, rfl, rfl, rfl, rfl, rfl, ⟨[v], rfl, rfl⟩, .inl ⟨rfl, rfl⟩, .inl ⟨rfl, rfl⟩⟩

/-! ### The forms of the meanings -/

theorem SameResult.ite {s' : State} {x x' y y' : Result} {p : Prop} [Decidable p] (hx : SameResult s s' x x')
    (hy : SameResult s s' y y') : SameResult s s' (if p then x else y) (if p then x' else y') := by
  by_cases hp : p
  · simpa only [if_pos hp] using hx
  · simpa only [if_neg hp] using hy

theorem SameResult.withDest (a : Operand) {g g' : Reg → Result}
    (hg : ∀ r, SameResult s (s.withRecord st f o) (g r) (g' r)) :
    SameResult s (s.withRecord st f o) (withDest a s g) (withDest a (s.withRecord st f o) g') := by
  cases a with
  | lit v => exact .raise _ _
  | reg r => exact hg r

theorem SameResult.withAddr (w : Word) {g g' : Nat → Result}
    (hg : ∀ x, SameResult s (s.withRecord st f o) (g x) (g' x)) :
    SameResult s (s.withRecord st f o) (withAddr w s g) (withAddr w (s.withRecord st f o) g') :=
  .ite (.raise _ _) (hg _)

theorem SameResult.writeDest (a : Operand) (n : Nat) (w : Word) :
    SameResult s (s.withRecord st f o) (writeDest a n w s) (writeDest a n w (s.withRecord st f o)) :=
  .withDest a fun _ => .kept rfl rfl rfl

/-! ### The instructions -/

theorem SameResult.pop (a : Operand) :
    SameResult s (s.withRecord st f o) (execPop a s) (execPop a (s.withRecord st f o)) := by
  refine .withDest a fun r => ?_
  rw [show (s.withRecord st f o).top = s.top from rfl]
  cases s.top with
  | none => exact .raise _ _
  | some v => exact .kept rfl rfl rfl

theorem SameResult.ret : SameResult s (s.withRecord st f o) (execRet s) (execRet (s.withRecord st f o)) := by
  unfold execRet
  rw [show (s.withRecord st f o).top = s.top from rfl]
  cases s.top with
  | none => exact .halt (s := s) (t := s.advance 0) rfl rfl _
  | some v => exact .kept rfl rfl rfl

theorem SameResult.inp (a : Operand) :
    SameResult s (s.withRecord st f o) (execIn a s) (execIn a (s.withRecord st f o)) := by
  refine .withDest a fun r => ?_
  rw [show (s.withRecord st f o).inq = s.inq from rfl]
  cases s.inq with
  | nil => exact .halt (s := s) (t := s) rfl rfl _
  | cons c rest => exact .kept rfl rfl rfl

theorem SameResult.of_exec (i : Instr) :
    SameResult s (s.withRecord st f o) (exec i s) (exec i (s.withRecord st f o)) := by
  cases i with
  | halt => exact .halt (s := s) (t := s.advance 0) rfl rfl _
  | set a b => exact .writeDest a _ _
  | push a => exact .ite (.raise _ _) (.kept rfl rfl rfl)
  | pop a => exact .pop a
  | eq a b c => exact .writeDest a _ _
  | gt a b c => exact .writeDest a _ _
  | jmp a => exact .kept rfl rfl rfl
  | jt a b => exact .ite (.kept rfl rfl rfl) (.kept rfl rfl rfl)
  | jf a b => exact .ite (.kept rfl rfl rfl) (.kept rfl rfl rfl)
  | add a b c => exact .writeDest a _ _
  | mult a b c => exact .writeDest a _ _
  | mod a b c => exact .withDest a fun _ => .ite (.raise _ _) (.kept rfl rfl rfl)
  | and a b c => exact .writeDest a _ _
  | or a b c => exact .writeDest a _ _
  | not a b => exact .writeDest a _ _
  | rmem a b => exact .withDest a fun _ => .withAddr _ fun _ => .kept rfl rfl rfl
  | wmem a b =>
    simp only [exec, execWmem]
    exact .withAddr _ fun _ => .kept rfl rfl rfl
  | call a => exact .ite (.raise _ _) (.kept rfl rfl rfl)
  | ret => exact .ret
  | out a => exact .emit _ _
  | inp a => exact .inp a
  | noop => exact .kept rfl rfl rfl

end

/-- Settles O39: every meaning has the same effect on a state with another record. -/
theorem instructionsDoNotReadStatus : Obligations.InstructionsDoNotReadStatus := by
  intro i s t st f o hexec
  obtain ⟨u, hu, he⟩ := SameResult.of_exec (st := st) (f := f) (o := o) i t hexec
  exact ⟨u, hu, he.regs, he.mem, he.stack, he.pc, he.inq, he.cfg, he.output, he.status, he.fault⟩

end Sys2Proof.Machine
end

section
/-! Values above 32767 (10_state.md R24): what a computing instruction writes is below 32768, so a register comes to
hold a wide value only by an instruction that copies one. -/

namespace Sys2Proof.Machine

variable {s t : State}

/-! ### What is written is narrow -/

theorem reduce_toNat_le (n : Nat) : (reduce n).toNat ≤ 32767 := by
  simp only [reduce, BitVec.toNat_ofNat, valueModulus_eq]
  omega

theorem aluNot_toNat_le (x : Word) : (aluNot x).toNat ≤ 32767 := by
  simp only [aluNot, BitVec.toNat_ofNat, valueModulus_eq]
  omega

theorem truthWord_toNat_le (p : Bool) : (truthWord p).toNat ≤ 32767 := by
  cases p <;> decide

theorem literal_toNat_le (v : Literal) : (v.setWidth 16 : Word).toNat ≤ 32767 := by
  rw [BitVec.toNat_setWidth]
  omega

/-! ### Where a wide value comes from -/

theorem readReg_of_writeDest {r : Reg} {n : Nat} {w : Word} (h : writeDest (.reg r) n w s = .next t) :
    t.readReg r = w := by
  cases h
  exact State.readReg_writeReg_self s r w

theorem not_wide_of_writeDest {r : Reg} {n : Nat} {w : Word} (h : writeDest (.reg r) n w s = .next t)
    (hw : w.toNat ≤ 32767) : ¬ 32767 < (t.readReg r).toNat := by
  rw [readReg_of_writeDest h]
  omega

/-- An instruction that makes a register wide is a copy: `rmem`, `pop`, `set` from a register, or `in`. -/
theorem exec_wide {i : Instr} {r : Reg} (h : exec i s = .next t) (hne : t.readReg r ≠ s.readReg r)
    (hwide : 32767 < (t.readReg r).toNat) :
    (∃ b, i = .rmem (.reg r) b ∧ t.readReg r = s.readMem (s.val b).toNat) ∨
    (i = .pop (.reg r) ∧ s.stack = t.stack ++ [t.readReg r]) ∨
    (∃ j, i = .set (.reg r) (.reg j) ∧ t.readReg r = s.readReg j) ∨
    (i = .inp (.reg r) ∧ s.inq = t.readReg r :: t.inq) := by
  have hdest : i.destOperand = some (.reg r) := onlyDestinationRegistersChange i s t r h hne
  cases i with
  | halt | push | jmp | jt | jf | wmem | call | ret | out | noop => cases hdest
  | set a b =>
    cases hdest
    cases b with
    | lit v => exact absurd hwide (not_wide_of_writeDest h (literal_toNat_le v))
    | reg j => exact .inr (.inr (.inl ⟨j, rfl, readReg_of_writeDest h⟩))
  | pop a =>
    cases hdest
    refine .inr (.inl ⟨rfl, ?_⟩)
    cases exec_effect h with
    | raise => exact absurd rfl hne
    | write i q v hd hw => cases hw
    | pop q v hv =>
      rw [State.readReg_advance, State.readReg_writeReg_self]
      exact (List.dropLast_append_getLast? v hv).symm
  | eq a b c => cases hdest; exact absurd hwide (not_wide_of_writeDest h (truthWord_toNat_le _))
  | gt a b c => cases hdest; exact absurd hwide (not_wide_of_writeDest h (truthWord_toNat_le _))
  | add a b c => cases hdest; exact absurd hwide (not_wide_of_writeDest h (reduce_toNat_le _))
  | mult a b c => cases hdest; exact absurd hwide (not_wide_of_writeDest h (reduce_toNat_le _))
  | and a b c => cases hdest; exact absurd hwide (not_wide_of_writeDest h (reduce_toNat_le _))
  | or a b c => cases hdest; exact absurd hwide (not_wide_of_writeDest h (reduce_toNat_le _))
  | not a b => cases hdest; exact absurd hwide (not_wide_of_writeDest h (aluNot_toNat_le _))
  | mod a b c =>
    cases hdest
    simp only [exec, execMod, withDest_reg] at h
    split at h
    · cases h; exact absurd rfl hne
    · exact absurd hwide (not_wide_of_writeDest h (reduce_toNat_le _))
  | rmem a b =>
    cases hdest
    refine .inl ⟨b, rfl, ?_⟩
    simp only [exec, execRmem, withDest_reg] at h
    obtain ⟨-, rfl⟩ | ⟨-, hact⟩ := withAddr_cases h
    · exact absurd rfl hne
    · exact readReg_of_writeDest hact
  | inp a =>
    cases hdest
    refine .inr (.inr (.inr ⟨rfl, ?_⟩))
    cases exec_effect h with
    | raise => exact absurd rfl hne
    | write i q v hd hw => cases hw
    | wait => exact absurd rfl hne
    | take q c rest hq =>
      rw [State.readReg_advance, State.readReg_writeReg_self]
      exact hq

/-- Settles O41: the instruction that made the register wide is a copy. -/
theorem wideValuesOnlyByCopying : Obligations.WideValuesOnlyByCopying := by
  intro s t r hstep hne hwide
  obtain ⟨i, hd, hexec⟩ := step_exec_of_changed (State.readReg · r) (fun _ => rfl) (fun _ _ => rfl) hstep hne
  obtain ⟨b, rfl, hr⟩ | ⟨rfl, hst⟩ | ⟨j, rfl, hr⟩ | ⟨rfl, hq⟩ := exec_wide hexec hne hwide
  · exact .inl ⟨b, hd, hr⟩
  · exact .inr (.inl ⟨hd, hst⟩)
  · exact .inr (.inr (.inl ⟨j, hd, hr⟩))
  · exact .inr (.inr (.inr ⟨hd, hq⟩))

end Sys2Proof.Machine
end

section
/-! Reset (10_state.md R36, 20_memory.md R39): the image in memory, the invariant, and what the status port shows
(R32, R33, R35). -/

namespace Sys2Proof.Machine

/-! ### The image in memory -/

theorem Memory.read_eq_zero {m : Memory} {a : Nat} (h : ∀ c ∈ m, c.1 ≠ a) : m.read a = 0#16 := by
  induction m with
  | nil => rfl
  | cons c m ih =>
    obtain ⟨hc, hm⟩ := List.forall_mem_cons.mp h
    rw [Memory.read_cons, if_neg hc, ih hm]

/-- The words of an image stand from address `a` up, and 0 after them. -/
theorem Memory.read_ofWords (a : Nat) (ws : List Word) (k : Nat) :
    (Memory.ofWords a ws).read (a + k) = ws.getD k 0#16 := by
  induction ws generalizing a k with
  | nil => rfl
  | cons w ws ih =>
    have hrest : ∀ k, (Memory.ofWords (a + 1) ws).read (a + (k + 1)) = ws.getD k 0#16 := fun k => by
      rw [← ih (a + 1) k, Nat.add_right_comm, Nat.add_assoc]
    by_cases hw : w = 0#16
    · simp only [Memory.ofWords, hw, if_true]
      cases k with
      | zero => exact Memory.read_eq_zero fun c hc => by have := Memory.mem_ofWords hc; omega
      | succ k => exact hrest k
    · simp only [Memory.ofWords, hw, if_false, Memory.read_cons]
      cases k with
      | zero => exact if_pos rfl
      | succ k => rw [if_neg (by omega), List.getD_cons_succ, hrest k]

/-! ### Reset -/

/-- The state that reset leaves with an image it accepts. -/
def loaded (cfg : Config) (image : List Word) : State :=
  { State.reset with cfg := cfg, mem := Memory.ofWords 0 image }

theorem reset_of_le {cfg : Config} {image : List Word} (h : image.length ≤ 32768) :
    reset cfg image = .next (loaded cfg image) :=
  if_neg (Nat.not_lt.mpr h)

theorem reset_of_lt {cfg : Config} {image : List Word} (h : 32768 < image.length) :
    reset cfg image = .refused .imageTooLong :=
  if_pos h

theorem loaded_readMem (cfg : Config) (image : List Word) (k : Nat) :
    (loaded cfg image).readMem k = image.getD k 0#16 := by
  have h := Memory.read_ofWords 0 image k
  rwa [Nat.zero_add] at h

theorem loaded_readReg (cfg : Config) (image : List Word) (r : Reg) : (loaded cfg image).readReg r = 0#16 :=
  Vector.getElem_replicate r.isLt

theorem loaded_inv (cfg : Config) {image : List Word} (h : image.length ≤ 32768) : (loaded cfg image).Inv :=
  .of_running (Memory.ofWords_wf (by simpa using h)) (fun _ _ => Nat.zero_le _) rfl rfl

/-- Settles O50, field by field of the state that reset leaves. -/
theorem resetLoadsImageAndClearsState : Obligations.ResetLoadsImageAndClearsState := by
  intro cfg image
  refine ⟨fun h => ⟨_, reset_of_le h, fun k hk => ?_, fun k hk => ?_, loaded_readReg cfg image, rfl, rfl, rfl, rfl, rfl,
    rfl, rfl⟩, reset_of_lt⟩
  · rw [loaded_readMem, List.getD_eq_getElem _ _ hk]
  · rw [loaded_readMem, List.getD_eq_default _ _ hk]

/-- Settles O48: a state just loaded runs with an empty stack and a clear fault record. -/
theorem invariantHoldsAtReset : Obligations.InvariantHoldsAtReset := by
  refine ⟨loaded_inv Config.source (image := []) (Nat.zero_le _), fun cfg image t hreset => ?_⟩
  obtain hle | hlt := le_or_gt image.length 32768
  · rw [reset_of_le hle] at hreset
    cases hreset
    exact loaded_inv cfg hle
  · rw [reset_of_lt hlt] at hreset
    cases hreset

/-! ### The status port -/

/-- Settles O54: the codes count the statuses and the causes in the order of R32 and R113. -/
theorem statusPortShowsCodes : Obligations.StatusPortShowsCodes := by
  intro s
  refine ⟨decide_eq_true_iff, rfl, rfl, ?_, ?_⟩
  · rw [show (statusPort s).status = s.status.code from rfl]
    cases s.status <;> rfl
  · rw [show (statusPort s).faultCause = s.fault.causeCode from rfl]
    unfold FaultRecord.causeCode
    cases s.fault.cause with
    | none => rfl
    | some c => cases c <;> rfl

end Sys2Proof.Machine
end

section
/-! The stack is last in, first out (10_state.md R28, 42_data_stack.md R93, R94): a run of pushes, then a run of
pops. -/

namespace Sys2Proof.Machine

variable {s t : State}

theorem execSeq_append {is : List Instr} (h : execSeq is s = .next t) (js : List Instr) :
    execSeq (is ++ js) s = execSeq js t := by
  induction is generalizing s with
  | nil => cases h; rfl
  | cons i is ih =>
    simp only [execSeq, List.cons_append] at h ⊢
    cases hi : exec i s with
    | next u =>
      simp only [hi] at h ⊢
      exact ih h
    | fault r | refused r => simp [hi] at h

theorem exec_push_of_room (a : Operand) (h : s.stackFull = false) :
    exec (.push a) s = .next ((s.push (s.val a)).advance 1) := by
  simp [exec, execPush, h]

theorem exec_pop_of_top (r : Reg) {v : Word} (h : s.stack.getLast? = some v) :
    exec (.pop (.reg r)) s = .next ((s.dropTop.writeReg r v).advance 1) := by
  simp [exec, execPop, State.top, h]

/-- Pushes add their values in order and leave the registers, so later operands read as before. -/
theorem execSeq_pushes (vs : List Operand)
    (hroom : ∀ n, s.cfg.stackCapacity = some n → s.stack.length + vs.length ≤ n) :
    ∃ t, execSeq (vs.map .push) s = .next t ∧ t.stack = s.stack ++ vs.map s.val ∧ t.regs = s.regs := by
  induction vs generalizing s with
  | nil => exact ⟨s, rfl, by simp, rfl⟩
  | cons a vs ih =>
    simp only [List.length_cons] at hroom
    have hfull : s.stackFull = false := State.stackFull_eq_false fun n hn => by have := hroom n hn; omega
    obtain ⟨t, ht, hstack, hregs⟩ := ih (s := (s.push (s.val a)).advance 1) fun n hn => by
      have := hroom n hn
      simp only [State.advance_stack, State.push_stack, List.length_append, List.length_singleton]
      omega
    have hval : ((s.push (s.val a)).advance 1).val = s.val := funext fun o => State.val_congr rfl o
    refine ⟨t, ?_, ?_, hregs⟩
    · simpa only [List.map_cons, execSeq, exec_push_of_room a hfull] using ht
    · simpa [hval] using hstack

/-- `k` pops take the top `k` entries; the register holds the deepest of them. -/
theorem execSeq_pops (r : Reg) {k : Nat} (hk : k ≤ s.stack.length) :
    ∃ t, execSeq (List.replicate k (.pop (.reg r))) s = .next t ∧ t.stack = s.stack.take (s.stack.length - k) ∧
      ∀ v ∈ s.stack[s.stack.length - k]?, t.readReg r = v := by
  induction k with
  | zero => exact ⟨s, rfl, by simp, by simp⟩
  | succ k ih =>
    obtain ⟨t, ht, hstack, -⟩ := ih (by omega)
    obtain ⟨v, hv⟩ : ∃ v, s.stack[s.stack.length - (k + 1)]? = some v := ⟨_, List.getElem?_eq_getElem (by omega)⟩
    have hsub : s.stack.length - k = s.stack.length - (k + 1) + 1 := by omega
    have hsplit : t.stack = s.stack.take (s.stack.length - (k + 1)) ++ [v] := by
      rw [hstack, hsub, List.take_add_one, hv]
      rfl
    have hpop := exec_pop_of_top (s := t) r (v := v) (by rw [hsplit, List.getLast?_concat])
    refine ⟨(t.dropTop.writeReg r v).advance 1, ?_, ?_, ?_⟩
    · rw [List.replicate_succ', execSeq_append ht, execSeq, hpop]
      rfl
    · simp [hsplit]
    · simp [hv]

/-- Settles O58: the pushes put their values on the stack, and the pops take the last `k` of them. -/
theorem popsReverseThePushes : Obligations.PopsReverseThePushes := by
  intro vs r s k hroom hk
  obtain ⟨u, hu, hstack, -⟩ := execSeq_pushes vs hroom
  have hlen : u.stack.length = s.stack.length + vs.length := by simp [hstack]
  have hsub : s.stack.length + vs.length - k = s.stack.length + (vs.length - k) := by omega
  obtain ⟨t, ht, htake, htop⟩ := execSeq_pops (s := u) r (k := k) (by omega)
  rw [hlen, hsub, hstack] at htake htop
  refine ⟨t, (execSeq_append hu _).trans ht, ?_, fun v hv => ?_⟩
  · rw [htake, List.take_length_add_append, List.map_take]
  · apply htop
    rw [List.getElem?_append_right (by omega), Nat.add_sub_cancel_left, List.getElem?_map, Option.mem_def.mp hv]
    rfl

end Sys2Proof.Machine
end

section
/-! What may change memory (20_memory.md R38): a store at the address value of a `wmem`, and nothing else. -/

namespace Sys2Proof.Machine

variable {s t : State} {i : Instr}

/-- A memory word stays, or `wmem` stores its data value there (R38, R112). -/
theorem ExecEffect.readMem_cases (he : ExecEffect s i t) (x : Nat) :
    t.readMem x = s.readMem x ∨ ∃ a b, i = .wmem a b ∧ (s.val a).toNat = x ∧ t.readMem x = s.val b := by
  cases he with
  | wmem a b ha =>
    by_cases hx : (s.val a).toNat = x
    · subst hx
      exact .inr ⟨a, b, rfl, rfl, Memory.read_write_self s.mem (s.val a).toNat (s.val b)⟩
    · exact .inl (Memory.read_write_ne s.mem (s.val b) hx)
  | raise | write | jmp | jt | jf | noop | halt | out | wait | take | push | call | pop | ret | retEmpty =>
    exact .inl rfl

/-- Settles O36, by the effects that reach a memory word. -/
theorem onlyWmemChangesMemory : Obligations.OnlyWmemChangesMemory := by
  intro s t x hstep hne
  obtain ⟨i, hd, hexec⟩ := step_exec_of_changed (State.readMem · x) (fun _ => rfl) (fun _ _ => rfl) hstep hne
  obtain ⟨a, b, rfl, hx, hval⟩ := ((exec_effect hexec).readMem_cases x).resolve_left hne
  exact ⟨a, b, hd, hx, hval⟩

end Sys2Proof.Machine
end

section
/-! The encoding (30_encoding.md R52 to R65): the words the decoder accepts are the encodings, each followed by the
words it leaves. -/

namespace Sys2Proof.Machine

variable {op w : Word} {ws rest : List Word} {f : Format} {row : Row} {ops : List Operand} {i : Instr}

/-! ### The rows of the Instruction Table -/

@[simp] theorem buildInstr_f0 (j : Instr) : buildInstr (.f0 j) ops = some i ↔ ops = [] ∧ i = j := by
  rcases ops with _ | ⟨a, ops⟩ <;> simp [buildInstr, eq_comm (a := i)]

@[simp] theorem buildInstr_f1 (mk : Operand → Instr) :
    buildInstr (.f1 mk) ops = some i ↔ ∃ a, ops = [a] ∧ i = mk a := by
  rcases ops with _ | ⟨a, _ | ⟨b, ops⟩⟩ <;> simp [buildInstr, eq_comm (a := i)]

@[simp] theorem buildInstr_f2 (mk : Operand → Operand → Instr) :
    buildInstr (.f2 mk) ops = some i ↔ ∃ a b, ops = [a, b] ∧ i = mk a b := by
  rcases ops with _ | ⟨a, _ | ⟨b, _ | ⟨c, ops⟩⟩⟩ <;> simp [buildInstr, eq_comm (a := i)]

@[simp] theorem buildInstr_f3 (mk : Operand → Operand → Operand → Instr) :
    buildInstr (.f3 mk) ops = some i ↔ ∃ a b c, ops = [a, b, c] ∧ i = mk a b c := by
  rcases ops with _ | ⟨a, _ | ⟨b, _ | ⟨c, _ | ⟨d, ops⟩⟩⟩⟩ <;> simp [buildInstr, eq_comm (a := i)]

/-- Every row builds instructions of its own opcode, with the operands it is given (R59, R60). -/
theorem instructionTable_builds : ∀ p ∈ instructionTable.zipIdx, ∀ ops i,
    buildInstr p.1.format ops = some i → i.opcode = p.2 ∧ i.operands = ops := by
  simp +contextual [instructionTable, Instr.opcode, Instr.operands]

/-- An instruction that the row at an opcode word builds has that opcode, and the operands it is built from. -/
theorem opcode_operands_of_build (hrow : instructionTable[op.toNat]? = some row)
    (h : buildInstr row.format ops = some i) : i.opcode = op.toNat ∧ i.operands = ops :=
  instructionTable_builds (row, op.toNat) (List.mem_zipIdx_iff_getElem?.mpr hrow) ops i h

/-- The row at an instruction's opcode builds it from its operands, and has its name (R59, R70). -/
theorem exists_row (i : Instr) : ∃ row, instructionTable[i.opcode]? = some row ∧
    buildInstr row.format i.operands = some i ∧
    upperName i = String.ofList (row.mnemonic.toList.map Char.toUpper) := by
  cases i <;> exact ⟨_, rfl, rfl, rfl⟩

theorem length_of_buildInstr (h : buildInstr f ops = some i) : ops.length = f.arity := by
  cases f with
  | f0 j => obtain ⟨rfl, -⟩ := (buildInstr_f0 j).mp h; rfl
  | f1 mk => obtain ⟨a, rfl, -⟩ := (buildInstr_f1 mk).mp h; rfl
  | f2 mk => obtain ⟨a, b, rfl, -⟩ := (buildInstr_f2 mk).mp h; rfl
  | f3 mk => obtain ⟨a, b, c, rfl, -⟩ := (buildInstr_f3 mk).mp h; rfl

/-! ### What the decoder accepts -/

theorem decodeOperand_encodeOperand_bind {α : Type} (o : Operand) (k : Operand → Except DecodeError α) :
    (decodeOperand (encodeOperand o) >>= k) = k o := by
  rw [decodeOperand_encodeOperand]
  rfl

theorem decodeOperand_bind_ok {α : Type} {k : Operand → Except DecodeError α} {r : α}
    (h : (decodeOperand w >>= k) = .ok r) : ∃ o, encodeOperand o = w ∧ k o = .ok r := by
  cases hw : decodeOperand w with
  | error e => rw [hw] at h; cases h
  | ok o => rw [hw] at h; exact ⟨o, decodeOperand_ok hw, h⟩

/-- A format reads the words of the operands it builds from, and leaves the words after them (R53, R54). -/
theorem decodeOperands_of_build (h : buildInstr f ops = some i) :
    decodeOperands op f (ops.map encodeOperand ++ rest) = .ok (i, rest) := by
  cases f with
  | f0 j => obtain ⟨rfl, rfl⟩ := (buildInstr_f0 j).mp h; rfl
  | f1 mk =>
    obtain ⟨a, rfl, rfl⟩ := (buildInstr_f1 mk).mp h
    exact decodeOperand_encodeOperand_bind a _
  | f2 mk =>
    obtain ⟨a, b, rfl, rfl⟩ := (buildInstr_f2 mk).mp h
    exact (decodeOperand_encodeOperand_bind a _).trans (decodeOperand_encodeOperand_bind b _)
  | f3 mk =>
    obtain ⟨a, b, c, rfl, rfl⟩ := (buildInstr_f3 mk).mp h
    exact (decodeOperand_encodeOperand_bind a _).trans
      ((decodeOperand_encodeOperand_bind b _).trans (decodeOperand_encodeOperand_bind c _))

/-- The words a format accepts are those of operands it builds from, followed by the words it leaves. -/
theorem build_of_decodeOperands (h : decodeOperands op f ws = .ok (i, rest)) :
    ∃ ops, buildInstr f ops = some i ∧ ops.map encodeOperand ++ rest = ws := by
  unfold decodeOperands at h
  split at h
  case h_1 =>
    cases h
    exact ⟨[], rfl, rfl⟩
  case h_2 =>
    obtain ⟨x, rfl, hx⟩ := decodeOperand_bind_ok h
    cases hx
    exact ⟨[x], rfl, rfl⟩
  case h_3 =>
    obtain ⟨x, rfl, hx⟩ := decodeOperand_bind_ok h
    obtain ⟨y, rfl, hy⟩ := decodeOperand_bind_ok hx
    cases hy
    exact ⟨[x, y], rfl, rfl⟩
  case h_4 =>
    obtain ⟨x, rfl, hx⟩ := decodeOperand_bind_ok h
    obtain ⟨y, rfl, hy⟩ := decodeOperand_bind_ok hx
    obtain ⟨z, rfl, hz⟩ := decodeOperand_bind_ok hy
    cases hz
    exact ⟨[x, y, z], rfl, rfl⟩
  case h_5 => cases h

theorem opcode_lt (i : Instr) : i.opcode < 22 := by
  obtain ⟨row, hrow, -⟩ := exists_row i
  exact (List.getElem?_eq_some_iff.mp hrow).1

/-- The opcode word names the row that builds the instruction (R58). -/
theorem toNat_opcodeWord (i : Instr) : (BitVec.ofNat 16 i.opcode).toNat = i.opcode := by
  rw [BitVec.toNat_ofNat]
  have := opcode_lt i
  omega

/-- The decoder reads an instruction back from its words, whatever follows them. -/
theorem decode_encode (i : Instr) (rest : List Word) :
    decode (BitVec.ofNat 16 i.opcode) (i.operands.map encodeOperand ++ rest) = .ok (i, rest) := by
  obtain ⟨row, hrow, hbuild, -⟩ := exists_row i
  rw [decode_of_row (row := row) (by rwa [toNat_opcodeWord])]
  exact decodeOperands_of_build hbuild

/-- What the decoder accepts is the opcode and the operands of the instruction it gives, and the words it leaves. -/
theorem decode_ok (h : decode op ws = .ok (i, rest)) :
    i.opcode = op.toNat ∧ i.operands.map encodeOperand ++ rest = ws := by
  cases hrow : instructionTable[op.toNat]? with
  | none =>
    rw [decode_of_no_row hrow] at h
    cases h
  | some row =>
    rw [decode_of_row hrow] at h
    obtain ⟨ops, hbuild, hws⟩ := build_of_decodeOperands h
    obtain ⟨hop, rfl⟩ := opcode_operands_of_build hrow hbuild
    exact ⟨hop, hws⟩

theorem encode_append_of_decode (h : decode op ws = .ok (i, rest)) : encode i ++ rest = op :: ws := by
  obtain ⟨hop, hws⟩ := decode_ok h
  rw [encode, hop, BitVec.ofNat_toNat, BitVec.setWidth_eq, List.cons_append, hws]

theorem decodeWords_encode (i : Instr) : decodeWords (encode i) = some i := by
  have h := decode_encode i []
  rw [List.append_nil] at h
  simp only [decodeWords, encode, h]

/-- Settles O26: the opcode word of an instruction names a row that builds it from its operands. -/
theorem decodeOfEncode : Obligations.DecodeOfEncode :=
  fun i rest => ⟨_, _, rfl, decode_encode i rest⟩

/-- Settles O27: the row at the opcode word builds the instruction, so its opcode and operands are those read. -/
theorem encodeOfDecode : Obligations.EncodeOfDecode :=
  fun _ _ _ _ => encode_append_of_decode

/-! ### Operand words -/

/-- Settles O23, range by range. -/
theorem classifyByRange : Obligations.ClassifyByRange := by
  refine fun w => ⟨fun h => ⟨_, classify_of_lt (by omega), ?_⟩, fun h h' => ⟨_, classify_of_reg h (by omega), rfl⟩,
    classify_eq_none_iff.mpr⟩
  rw [BitVec.toNat_setWidth]
  omega

/-- Settles O24: the word is the encoding of its operand, so its range says which kind the operand is. -/
theorem valReadsLiteralOrRegister : Obligations.ValReadsLiteralOrRegister := by
  intro s w o h
  obtain rfl := encodeOperand_of_classify h
  cases o with
  | lit v =>
    refine ⟨fun _ => rfl, fun i hi => ?_⟩
    rw [encodeOperand_lit, BitVec.toNat_setWidth] at hi
    omega
  | reg j =>
    have hj : (encodeOperand (.reg j)).toNat = 32768 + j.val := by
      rw [encodeOperand_reg, BitVec.toNat_ofNat]
      omega
    refine ⟨fun hle => by omega, fun i hi => ?_⟩
    obtain rfl : j = i := Fin.ext (by omega)
    rfl

/-- Settles O25: six encodings, an opcode word without a row and an illegal operand word. -/
theorem writtenOutWordsDecode : Obligations.WrittenOutWordsDecode :=
  ⟨decodeWords_encode .halt, decodeWords_encode (.set (.reg 0) (.lit 5)),
    decodeWords_encode (.gt (.reg 2) (.lit 32767) (.reg 7)), decodeWords_encode (.jt (.reg 1) (.lit 3)),
    decodeWords_encode (.add (.reg 0) (.reg 1) (.lit 3)), decodeWords_encode (.wmem (.lit 100) (.reg 0)), rfl, rfl⟩

end Sys2Proof.Machine
end

section
/-! The static decoder and the disassembly scan (30_encoding.md R66 to R72). -/

namespace Sys2Proof.Machine

variable {w : Word} {ws rest image : List Word} {i : Instr} {it : Item} {pos n fuel : Nat}

/-! ### The item at a position -/

theorem itemAt_of_ok (h : decode w ws = .ok (i, rest)) : itemAt w ws = .instr i := by
  simp only [itemAt, h]

theorem itemAt_of_error {e : DecodeError} (h : decode w ws = .error e) : itemAt w ws = .data w := by
  simp only [itemAt, h]

/-- The words of an item are the first of those it was read from. -/
theorem itemAt_words_append (w : Word) (ws : List Word) : ∃ rest, (itemAt w ws).words ++ rest = w :: ws := by
  cases h : decode w ws with
  | ok p => exact ⟨p.2, by rw [itemAt_of_ok h]; exact encode_append_of_decode h⟩
  | error e => exact ⟨ws, by rw [itemAt_of_error h]; rfl⟩

theorem Item.length_words (it : Item) : it.words.length = it.length := by
  cases it with
  | instr i => simp [Item.words, Item.length, encode, Instr.length, Nat.add_comm]
  | data w => rfl

theorem Item.length_pos (it : Item) : 0 < it.length := by
  cases it with
  | instr i => exact Nat.add_pos_left Nat.one_pos _
  | data w => exact Nat.one_pos

theorem decodeItem_of_drop (h : image.drop pos = w :: ws) :
    decodeItem image pos = some (itemAt w ws, (itemAt w ws).length) := by
  simp only [decodeItem, h]

theorem decodeItem_none (h : decodeItem image pos = none) : image.drop pos = [] := by
  cases hd : image.drop pos with
  | nil => rfl
  | cons w ws => rw [decodeItem_of_drop hd] at h; cases h

/-- An item takes its own words from the image, and the rest stand after its length. -/
theorem decodeItem_some (h : decodeItem image pos = some (it, n)) :
    n = it.length ∧ it.words ++ image.drop (pos + n) = image.drop pos := by
  cases hd : image.drop pos with
  | nil => simp only [decodeItem, hd] at h; cases h
  | cons w ws =>
    rw [decodeItem_of_drop hd] at h
    cases h
    obtain ⟨rest, hrest⟩ := itemAt_words_append w ws
    refine ⟨rfl, ?_⟩
    rw [← List.drop_drop, hd, ← hrest, ← Item.length_words, List.drop_left]

/-! ### The rendering -/

theorem decodeStatic_of_drop (h : image.drop pos = w :: ws) :
    decodeStatic image pos = some ((itemAt w ws).render, (itemAt w ws).length) := by
  simp only [decodeStatic, decodeItem_of_drop h, Option.map_some]

theorem renderOperands_of_ne_out_lit (h : ∀ v, i ≠ .out (.lit v)) :
    renderOperands i = i.operands.map renderOperand := by
  cases i with
  | out a =>
    cases a with
    | lit v => exact absurd rfl (h v)
    | reg r => rfl
  | _ => rfl

/-- An instruction has the name and the arity of the row at its opcode word (R59, R70). -/
theorem row_of_decode (h : decode w ws = .ok (i, rest)) : ∃ row, instructionTable[w.toNat]? = some row ∧
    upperName i = String.ofList (row.mnemonic.toList.map Char.toUpper) ∧ i.operands.length = row.arity := by
  obtain ⟨row, hrow, hbuild, hname⟩ := exists_row i
  obtain ⟨harity, -⟩ := instructionTable_arities row (List.mem_of_getElem? hrow)
  obtain ⟨hop, -⟩ := decode_ok h
  exact ⟨row, hop ▸ hrow, hname, (length_of_buildInstr hbuild).trans harity.symm⟩

/-- Settles O59: a position renders the item there, which is the decoded instruction or the word. -/
theorem staticDecoderRendersPosition : Obligations.StaticDecoderRendersPosition := by
  intro image pos w ws hd
  refine ⟨fun i rest h => ?_, fun e h => ?_, fun _ => rfl, fun _ => renderOperands_of_ne_out_lit, fun _ => rfl,
    fun _ => rfl⟩
  · obtain ⟨row, hrow, hname, harity⟩ := row_of_decode h
    refine ⟨row, hrow, hname, harity, ?_⟩
    rw [decodeStatic_of_drop hd, itemAt_of_ok h, ← harity]
    rfl
  · rw [decodeStatic_of_drop hd, itemAt_of_error h]
    rfl

/-! ### The scan -/

/-- With a line for each word that is left, the scan's items are the words that are left. -/
theorem scanFrom_words (h : image.length ≤ pos + fuel) :
    (scanFrom image fuel pos).flatMap (fun l => l.2.words) = image.drop pos := by
  induction fuel generalizing pos with
  | zero => exact (List.drop_eq_nil_of_le h).symm
  | succ fuel ih =>
    cases hd : decodeItem image pos with
    | none => simp only [scanFrom, hd, decodeItem_none hd, List.flatMap_nil]
    | some p =>
      obtain ⟨hn, hwords⟩ := decodeItem_some hd
      have := p.1.length_pos
      simp only [scanFrom, hd, List.flatMap_cons]
      rw [ih (by omega), hwords]

theorem decodeItem_of_mem_scanFrom {l : Nat × Item} (h : l ∈ scanFrom image fuel pos) :
    decodeItem image l.1 = some (l.2, l.2.length) := by
  induction fuel generalizing pos with
  | zero => cases h
  | succ fuel ih =>
    cases hd : decodeItem image pos with
    | none =>
      simp only [scanFrom, hd] at h
      cases h
    | some p =>
      simp only [scanFrom, hd] at h
      obtain rfl | hmem := List.mem_cons.mp h
      · obtain ⟨hn, -⟩ := decodeItem_some hd
        rw [hd, ← hn]
      · exact ih hmem

/-- Settles O60: the scan starts at 0 with a line for each word. -/
theorem disassemblyCoversTheImage : Obligations.DisassemblyCoversTheImage :=
  fun _ => ⟨scanFrom_words (Nat.le_add_left _ _), fun _ => decodeItem_of_mem_scanFrom⟩

end Sys2Proof.Machine
end

section
/-! The run of a CORE together with its host (40_execution_cycle.md R86, 60_exceptions.md R121, R124): what each host
action can do, and what every event keeps, a run keeps. -/

namespace Sys2Proof.Machine

variable {s t : State} {e : Event} {es : List Event} {codes : List Word}

/-! ### The host's actions -/

/-- The host appends a non-empty sequence, to a CORE that waits, which then runs again (R121). -/
theorem supplyInput_cases (h : supplyInput codes s = .next t) :
    s.status = .waitingInput ∧ codes ≠ [] ∧ t = { s with inq := s.inq ++ codes, status := .running } := by
  unfold supplyInput at h
  split at h
  next hs =>
    cases codes with
    | nil => cases h
    | cons c cs => cases h; exact ⟨hs, List.cons_ne_nil c cs, rfl⟩
  next => cases h

theorem Status.isLive_eq_true_iff {st : Status} : st.isLive = true ↔ st = .running ∨ st = .waitingInput := by
  cases st <;> simp [Status.isLive]

theorem Status.isLive_eq_false_iff {st : Status} : st.isLive = false ↔ st ≠ .running ∧ st ≠ .waitingInput := by
  rw [← Bool.not_eq_true, Status.isLive_eq_true_iff, not_or]

theorem requestStop_of_live (h : s.status.isLive = true) : requestStop s = s.halt .stopped :=
  if_pos h

theorem requestStop_of_terminal (h : s.status.isLive = false) : requestStop s = s :=
  if_neg (Bool.eq_false_iff.mp h)

/-! ### Runs -/

theorem runEvents_cons (h : runEvents (e :: es) s = .next t) :
    ∃ u, event e s = .next u ∧ runEvents es u = .next t := by
  cases he : event e s with
  | next u => simp only [runEvents, he] at h; exact ⟨u, rfl, h⟩
  | fault r => simp only [runEvents, he] at h; cases h
  | refused r => simp only [runEvents, he] at h; cases h

/-- What every event keeps, every run keeps. -/
theorem runEvents_preserves {P : State → Prop} (hP : ∀ e s t, P s → event e s = .next t → P t) (hs : P s)
    (h : runEvents es s = .next t) : P t := by
  induction es generalizing s with
  | nil => cases h; exact hs
  | cons e es ih =>
    obtain ⟨u, he, hrun⟩ := runEvents_cons h
    exact ih (hP e s u hs he) hrun

/-! ### The invariant along a run -/

theorem State.Inv.fault_eq_clear_of_ne_faulted (h : s.Inv) (hs : s.status ≠ .faulted) :
    s.fault = FaultRecord.clear := by
  simpa [State.faultConsistent, hs] using h.fault

/-- A waiting CORE that is given input runs on in the invariant: no fault has occurred (R121). -/
theorem State.Inv.supplied (h : s.Inv) (hs : s.status = .waitingInput) (q : List Word) :
    ({ s with inq := q, status := .running } : State).Inv :=
  .of_running h.memory h.stack rfl (h.fault_eq_clear_of_ne_faulted (by simp [hs]))

/-- A live CORE that is stopped is in the invariant: no fault has occurred (R124). -/
theorem State.Inv.stopped (h : s.Inv) (hs : s.status.isLive = true) : (s.halt .stopped).Inv where
  memory := h.memory
  stack := h.stack
  fault := by
    have hne : s.status ≠ .faulted := fun hf => by rw [hf] at hs; cases hs
    simpa [State.faultConsistent] using h.fault_eq_clear_of_ne_faulted hne
  wait := by simp [State.waitConsistent]
  halt := by simp [State.haltConsistent]

theorem event_preserves_inv (h : s.Inv) (he : event e s = .next t) : t.Inv := by
  cases e with
  | step => exact step_preserves_inv h he
  | supply codes =>
    obtain ⟨hs, -, rfl⟩ := supplyInput_cases he
    exact h.supplied hs _
  | stop =>
    cases he
    cases hlive : s.status.isLive with
    | true => rw [requestStop_of_live hlive]; exact h.stopped hlive
    | false => rwa [requestStop_of_terminal hlive]

/-- Settles O49, by induction on the events, each of which keeps the invariant. -/
theorem invariantKeptByEveryRun : Obligations.InvariantKeptByEveryRun :=
  fun _ _ _ => runEvents_preserves fun _ _ _ => event_preserves_inv

/-! ### The terminal statuses along a run -/

/-- In a terminal status no step is enabled, no input is asked for and a stop request has no effect (R84, R124). -/
theorem event_eq_self_of_terminal (hs : s.status.isLive = false) (he : event e s = .next t) : t = s := by
  obtain ⟨hrun, hwait⟩ := Status.isLive_eq_false_iff.mp hs
  cases e with
  | step => exact absurd (step_cases he).1 hrun
  | supply codes => exact absurd (supplyInput_cases he).1 hwait
  | stop => cases he; exact requestStop_of_terminal hs

/-- Settles O56, by induction on the events, none of which leaves the terminal state. -/
theorem terminalStatusesAreFinal : Obligations.TerminalStatusesAreFinal := by
  intro es s t hrun hwait
  have hs : s.status.isLive = false := Status.isLive_eq_false_iff.mpr ⟨hrun, hwait⟩
  have hevent : ∀ e u v, u = s → event e u = .next v → v = s := by
    rintro e u v rfl he
    exact event_eq_self_of_terminal hs he
  exact runEvents_preserves hevent rfl

end Sys2Proof.Machine
end

section
/-! When a step has a next state (40_execution_cycle.md R74, R75, R80): always while the CORE runs, since every action
has one, and only then. -/

namespace Sys2Proof.Machine

variable {s : State} {i : Instr}

/-! ### A step for each outcome of the fetch -/

/-- The runoff halt of a running CORE (R75). -/
theorem step_of_runoff (hs : s.status = .running) (hpc : 32768 ≤ s.pc.toNat) :
    step s = .next (s.halt .haltedRunoff) := by
  simp [step, fetch, hs, fetchRunning, hpc]

/-- The action of the decoded instruction is the whole step (R80). -/
theorem step_of_decode_ok (h : s.fetches) (hd : s.decodeAtPc = .ok i) : step s = exec i s := by
  have hpc : ¬ memWords ≤ s.pc.toNat := Nat.not_le.mpr h.2
  simp [step, fetch_of_fetches h, fetchRunning, hpc, hd]

/-- Settles O29. -/
theorem runoffIsACleanHalt : Obligations.RunoffIsACleanHalt :=
  fun _ => step_of_runoff

/-- Settles O32. -/
theorem stepRunsTheDecodedInstruction : Obligations.StepRunsTheDecodedInstruction :=
  fun _ _ => step_of_decode_ok

/-! ### Every action has a next state -/

theorem withDest_exists_next (a : Operand) (s : State) {f : Reg → Result} (hf : ∀ r, ∃ t, f r = .next t) :
    ∃ t, withDest a s f = .next t := by
  cases a with
  | lit v => exact ⟨_, rfl⟩
  | reg r => exact hf r

theorem withAddr_exists_next (w : Word) (s : State) {f : Nat → Result} (hf : ∀ x, ∃ t, f x = .next t) :
    ∃ t, withAddr w s f = .next t := by
  unfold withAddr
  split
  · exact ⟨_, rfl⟩
  · exact hf _

theorem writeDest_exists_next (a : Operand) (n : Nat) (w : Word) (s : State) : ∃ t, writeDest a n w s = .next t :=
  withDest_exists_next a s fun _ => ⟨_, rfl⟩

/-- A fatal error and a clean halt are next states too, so no action stops without one (R83). -/
theorem exec_exists_next (i : Instr) (s : State) : ∃ t, exec i s = .next t := by
  cases i with
  | halt | jmp | out | noop => exact ⟨_, rfl⟩
  | set | eq | gt | add | mult | and | or | not => exact writeDest_exists_next ..
  | push | jt | jf | call | ret =>
    simp only [exec, execPush, execJt, execJf, execCall, execRet]
    split <;> exact ⟨_, rfl⟩
  | pop | mod | inp =>
    refine withDest_exists_next _ s fun r => ?_
    split <;> exact ⟨_, rfl⟩
  | rmem => exact withDest_exists_next _ s fun r => withAddr_exists_next _ s fun x => ⟨_, rfl⟩
  | wmem => exact withAddr_exists_next _ s fun x => ⟨_, rfl⟩

theorem step_exists_next (hs : s.status = .running) : ∃ t, step s = .next t := by
  by_cases hpc : s.pc.toNat < memWords
  · cases hd : s.decodeAtPc with
    | error e => exact ⟨_, step_of_decode_error ⟨hs, hpc⟩ hd⟩
    | ok i => rw [step_of_decode_ok ⟨hs, hpc⟩ hd]; exact exec_exists_next i s
  · exact ⟨_, step_of_runoff hs (Nat.not_lt.mp hpc)⟩

/-- Settles O28: the runoff halt, a fatal error of the fetch and every action are next states. -/
theorem stepEnabledExactlyWhenRunning : Obligations.StepEnabledExactlyWhenRunning :=
  fun _ => ⟨fun ⟨_, h⟩ => (step_cases h).1, step_exists_next⟩

end Sys2Proof.Machine
end

section
/-! The checks of a step before its action (40_execution_cycle.md R76 to R78): the opcode word, the presence of the
operand words, and their ranges. -/

namespace Sys2Proof.Machine

variable {s : State} {op w : Word} {ws : List Word} {f : Format} {e : DecodeError}

/-! ### How a format refuses its words -/

theorem decodeOperand_bind_error {α : Type} {k : Operand → Except DecodeError α}
    (h : (decodeOperand w >>= k) = .error e) : e = .illegalOperand w ∨ ∃ o, k o = .error e := by
  cases hw : decodeOperand w with
  | error e' => rw [hw] at h; cases h; exact .inl (decodeOperand_error hw)
  | ok o => rw [hw] at h; exact .inr ⟨o, h⟩

/-- A format refuses for an operand word only, absent or illegal. -/
theorem decodeOperands_error (h : decodeOperands op f ws = .error e) :
    e = .operandFetch op ∨ ∃ w, e = .illegalOperand w := by
  unfold decodeOperands at h
  split at h
  case h_1 => cases h
  case h_2 =>
    obtain rfl | ⟨x, hx⟩ := decodeOperand_bind_error h
    · exact .inr ⟨_, rfl⟩
    · cases hx
  case h_3 =>
    obtain rfl | ⟨x, hx⟩ := decodeOperand_bind_error h
    · exact .inr ⟨_, rfl⟩
    obtain rfl | ⟨y, hy⟩ := decodeOperand_bind_error hx
    · exact .inr ⟨_, rfl⟩
    · cases hy
  case h_4 =>
    obtain rfl | ⟨x, hx⟩ := decodeOperand_bind_error h
    · exact .inr ⟨_, rfl⟩
    obtain rfl | ⟨y, hy⟩ := decodeOperand_bind_error hx
    · exact .inr ⟨_, rfl⟩
    obtain rfl | ⟨z, hz⟩ := decodeOperand_bind_error hy
    · exact .inr ⟨_, rfl⟩
    · cases hz
  case h_5 => cases h; exact .inl rfl

/-- The decoder knows exactly the opcodes of the table's rows (R61). -/
theorem decode_unknownOpcode_iff : decode op ws = .error (.unknownOpcode op) ↔ 22 ≤ op.toNat := by
  rw [← instructionTable_none_iff]
  refine ⟨fun h => ?_, fun h => decode_of_no_row h ws⟩
  cases hrow : instructionTable[op.toNat]? with
  | none => rfl
  | some row =>
    rw [decode_of_row hrow] at h
    obtain hfetch | ⟨w, hill⟩ := decodeOperands_error h
    · cases hfetch
    · cases hill

/-! ### The faults of a step's fetch -/

/-- What the decoder refuses at the pc is the fatal error of the step (R117). -/
theorem step_of_decode_words_error (h : s.fetches)
    (hd : decode (s.readMem s.pc.toNat) (wordsFrom s.mem (s.pc.toNat + 1) 3) = .error e) :
    step s = .next (s.faultedBy (decodeCause e) (decodeInfo e)) :=
  step_of_decode_error h (by simp only [State.decodeAtPc, hd])

/-- Settles O30: the table has no row from 22 on, and the fetch looks the whole opcode word up in it. -/
theorem unknownOpcodeFaults : Obligations.UnknownOpcodeFaults :=
  ⟨fun _ _ => decode_unknownOpcode_iff,
    fun _ hf hop => step_of_decode_words_error hf (decode_unknownOpcode_iff.mpr hop)⟩

theorem Format.arity_le (f : Format) : f.arity ≤ 3 := by
  cases f <;> simp [Format.arity]

/-- The fetch sees an operand word for each address after the pc that memory has, up to three (R77). -/
theorem length_operandWords (s : State) :
    (wordsFrom s.mem (s.pc.toNat + 1) 3).length = min 3 (32767 - s.pc.toNat) := by
  rw [wordsFrom_length]
  omega

theorem getElem_operandWords (s : State) {j : Nat} (h : j < (wordsFrom s.mem (s.pc.toNat + 1) 3).length) :
    (wordsFrom s.mem (s.pc.toNat + 1) 3)[j] = s.operandWord (j + 1) := by
  rw [wordsFrom_getElem, State.operandWord, Nat.add_assoc, Nat.add_comm 1 j]
  rfl

/-- Settles O31: the format of a row wants its words present, then takes the first illegal one. -/
theorem operandChecksForEveryOpcode : Obligations.OperandChecksForEveryOpcode := by
  rintro op row hrow s hf rfl
  obtain ⟨harity, -⟩ := instructionTable_arities row (List.mem_of_getElem? hrow)
  have hlen := length_operandWords s
  have hle := Format.arity_le row.format
  rw [harity]
  refine ⟨fun hend => ?_, fun hroom k hk hkn hlegal hill => ?_⟩
  · have hpc : s.pc.toNat < 32768 := hf.2
    simp only [memWords_eq] at hend
    exact step_of_decode_words_error hf
      ((decode_of_row hrow _).trans (decodeOperands_short _ _ _ (by omega)))
  · obtain ⟨k, rfl⟩ := Nat.exists_eq_add_of_le' hk
    simp only [memWords_eq] at hroom
    have hk' : k < (wordsFrom s.mem (s.pc.toNat + 1) 3).length := by omega
    have hword := getElem_operandWords s hk'
    rw [← hword] at hill ⊢
    refine step_of_decode_words_error hf ((decode_of_row hrow _).trans
      (decodeOperands_illegal _ _ _ k (by omega) (by omega) (fun j hj hjk => ?_) hill))
    rw [getElem_operandWords s hj]
    exact hlegal (j + 1) (by omega) (by omega)

end Sys2Proof.Machine
end

section
/-! The end of a step (40_execution_cycle.md R80 to R83): where the pc goes when the run goes on, and what a fault or a
wait leaves. -/

namespace Sys2Proof.Machine

variable {s t : State} {i : Instr}

/-! ### Precise faults and waits -/

/-- Settles O33, by the kinds of step and, for an action, the ways it ends the run or waits. -/
theorem faultingAndWaitingStepsArePrecise : Obligations.FaultingAndWaitingStepsArePrecise := by
  intro s t hstep
  obtain ⟨hs, ⟨-, rfl⟩ | ⟨-, e, -, rfl⟩ | ⟨-, i, -, hexec⟩⟩ := step_cases hstep
  · exact ⟨nofun, nofun⟩
  · exact ⟨nofun, fun _ => ⟨_, _, rfl⟩⟩
  · obtain ⟨hst, -⟩ | ⟨c, w, rfl⟩ | ⟨-, hst, -⟩ | ⟨-, hst, -⟩ | ⟨r, -, rfl⟩ := (exec_effect hexec).status_cases
    · simp [hst, hs]
    · exact ⟨nofun, fun _ => ⟨c, w, rfl⟩⟩
    · simp [hst]
    · simp [hst]
    · exact ⟨fun _ => rfl, nofun⟩

/-! ### The fall-through address -/

/-- An effect after which the CORE runs goes on at the fall-through address, or it is a control transfer's (R80). -/
theorem ExecEffect.pc_cases (he : ExecEffect s i t) (ht : t.status = .running) :
    (∃ a, i = .jmp a) ∨ (∃ a b, i = .jt a b) ∨ (∃ a b, i = .jf a b) ∨ (∃ a, i = .call a) ∨ i = .ret ∨
      t.pc = s.nextPc i.operands.length := by
  cases he with
  | jmp a => exact .inl ⟨a, rfl⟩
  | jt a b => exact .inr (.inl ⟨a, b, rfl⟩)
  | jf a b => exact .inr (.inr (.inl ⟨a, b, rfl⟩))
  | call a => exact .inr (.inr (.inr (.inl ⟨a, rfl⟩)))
  | ret | retEmpty => exact .inr (.inr (.inr (.inr (.inl rfl))))
  | raise | halt | wait => cases ht
  | write | noop | out | take | push | pop | wmem => exact .inr (.inr (.inr (.inr (.inr rfl))))

/-- An instruction that decodes at the pc lies in memory as a whole, so its end is at most 32768 (R77). -/
theorem pc_add_length_le (hf : s.fetches) (hd : s.decodeAtPc = .ok i) : s.pc.toNat + i.length ≤ 32768 := by
  unfold State.decodeAtPc at hd
  split at hd
  next j rest hj =>
    cases hd
    have hlen : i.operands.length + rest.length = min 3 (32767 - s.pc.toNat) := by
      rw [← length_operandWords s, ← (decode_ok hj).2, List.length_append, List.length_map]
    have hpc : s.pc.toNat < 32768 := hf.2
    simp only [Instr.length]
    omega
  next => cases hd

/-- The fall-through address does not wrap where an instruction decodes (R26, R80). -/
theorem nextPc_toNat (hf : s.fetches) (hd : s.decodeAtPc = .ok i) :
    (s.nextPc i.operands.length).toNat = s.pc.toNat + i.length := by
  have hle := pc_add_length_le hf hd
  simp only [State.nextPc, BitVec.toNat_add, BitVec.toNat_ofNat, Instr.length] at hle ⊢
  omega

/-- Settles O34: what goes on and transfers no control has gone to the fall-through address, which does not wrap. -/
theorem fallThroughIsNextInstruction : Obligations.FallThroughIsNextInstruction := by
  intro s t i hf hd hstep ht
  rw [step_of_decode_ok hf hd] at hstep
  refine ⟨pc_add_length_le hf hd, ?_⟩
  rw [← nextPc_toNat hf hd, BitVec.toNat_inj]
  exact (exec_effect hstep).pc_cases ht

end Sys2Proof.Machine
end

section
/-! A step on an instruction's own words (30_encoding.md R53, 40_execution_cycle.md R74 to R80): words that stand at the
pc are decoded there, so a step at an encoding executes its instruction. -/

namespace Sys2Proof.Machine

variable {s : State} {i : Instr}

/-- No instruction is longer than the fetch reads: the opcode word and three words after it (R54, R77). -/
theorem length_operands_le (i : Instr) : i.operands.length ≤ 3 := by
  obtain ⟨row, -, hbuild, -⟩ := exists_row i
  rw [length_of_buildInstr hbuild]
  exact Format.arity_le row.format

/-- The fetch decodes the instruction whose encoding stands at the pc, whatever follows it. -/
theorem decodeAtPc_of_holds (h : s.holds (encode i)) : s.decodeAtPc = .ok i := by
  obtain ⟨-, hroom, hwords⟩ := h
  simp only [encode, List.length_cons] at hroom hwords
  have hop : s.readMem s.pc.toNat = BitVec.ofNat 16 i.opcode := hwords 0 (Nat.succ_pos _)
  have hoperand : ∀ j (hj : j < (i.operands.map encodeOperand).length),
      s.mem.read (s.pc.toNat + 1 + j) = (i.operands.map encodeOperand)[j] := by
    intro j hj
    rw [Nat.add_assoc, Nat.add_comm 1 j]
    exact hwords (j + 1) (Nat.succ_lt_succ hj)
  obtain ⟨rest, hrest⟩ := wordsFrom_append s.mem (s.pc.toNat + 1) 3 (i.operands.map encodeOperand)
    (by simpa using length_operands_le i) (by omega) hoperand
  simp only [State.decodeAtPc, hop, hrest, decode_encode]

theorem step_of_holds (h : s.holds (encode i)) : step s = exec i s :=
  step_of_decode_ok h.1 (decodeAtPc_of_holds h)

theorem encodes_encode (i : Instr) : Encodes i (encode i) :=
  ⟨rfl, fun _ => step_of_holds⟩

end Sys2Proof.Machine
end

section
/-! The system and I/O instructions `halt`, `out`, `in` and `noop` (41_system_io.md R88 to R91), each with its encoding,
its action and its faults, and the completion of an `in` that waited. -/

namespace Sys2Proof.Machine

variable {s : State} {q : List Word} {c : Word}

/-! ### The actions -/

theorem exec_halt (s : State) : exec .halt s = .next ((s.advance 0).halt .haltedHalt) := rfl

theorem exec_noop (s : State) : exec .noop s = .next (s.advance 0) := rfl

theorem exec_out (a : Operand) (s : State) : exec (.out a) s = .next ((s.emit (s.val a)).advance 1) := rfl

/-- A literal destination is refused whatever the queue holds (R79). -/
theorem refusesLiteralTarget_inp : RefusesLiteralTarget .inp := fun _ _ => rfl

theorem exec_inp_of_cons (r : Reg) (h : s.inq = c :: q) :
    exec (.inp (.reg r)) s = .next (((s.setInq q).writeReg r c).advance 1) := by
  simp only [exec, execIn, withDest_reg, h]

theorem exec_inp_of_nil (r : Reg) (h : s.inq = []) : exec (.inp (.reg r)) s = .next s.waitInput := by
  simp only [exec, execIn, withDest_reg, h]

/-! ### The instructions -/

/-- Settles O1. -/
theorem haltEndsTheRunAtNext : Obligations.HaltEndsTheRunAtNext :=
  ⟨encodes_encode .halt, exec_halt⟩

/-- Settles O20: the faults are those of every row of the table. -/
theorem outEmitsValue : Obligations.OutEmitsValue :=
  ⟨fun a => encodes_encode (.out a), exec_out, operandChecksForEveryOpcode 19#16 _ rfl⟩

/-- Settles O21: the queue decides between the take and the wait, once the destination is a register. -/
theorem inTakesInputOrWaits : Obligations.InTakesInputOrWaits :=
  ⟨fun a => encodes_encode (.inp a), fun r _ _ _ hq => exec_inp_of_cons r hq, fun r _ hq => exec_inp_of_nil r hq,
    refusesLiteralTarget_inp, operandChecksForEveryOpcode 20#16 _ rfl⟩

/-- Settles O22: after the last address of memory the pc is 32768, where the runoff halt is the next step. -/
theorem noopOnlyAdvances : Obligations.NoopOnlyAdvances := by
  refine ⟨encodes_encode .noop, exec_noop, fun s h hpc => ⟨?_, step_of_runoff h.1.1 (le_refl 32768)⟩⟩
  have hnext : s.nextPc 0 = 32768#16 := by rw [State.nextPc, hpc]; rfl
  rw [step_of_holds (i := .noop) h, exec_noop, State.advance, hnext]
  rfl

/-! ### The wait completed -/

/-- A CORE of the invariant waits at an `in` to a register, below address 32768 and with an empty queue (R90, R132). -/
theorem State.Inv.waiting_inp (h : s.Inv) (hs : s.status = .waitingInput) :
    s.inq = [] ∧ s.pc.toNat < memWords ∧ ∃ r, s.decodeAtPc = .ok (.inp (.reg r)) := by
  obtain ⟨hq, hpc, r, hd⟩ := h.wait hs
  refine ⟨hq, hpc, r, ?_⟩
  cases hdec : s.decodeAtPc with
  | ok i => rw [hdec] at hd; cases hd; rfl
  | error e => rw [hdec] at hd; cases hd

theorem supplyInput_of_waiting (hs : s.status = .waitingInput) (c : Word) (q : List Word) :
    supplyInput (c :: q) s = .next { s with inq := s.inq ++ c :: q, status := .running } :=
  if_pos hs

/-- Settles O52: the supply leaves memory and the pc, so the same `in` is fetched, now with the supplied queue. -/
theorem waitingInExecutesAfterSupply : Obligations.WaitingInExecutesAfterSupply := by
  intro s c cs hinv hs
  obtain ⟨hq, hpc, r, hd⟩ := hinv.waiting_inp hs
  have hsupply := supplyInput_of_waiting hs c cs
  rw [hq, List.nil_append] at hsupply
  have hfetches : ({ s with inq := c :: cs, status := .running } : State).fetches := ⟨rfl, hpc⟩
  exact ⟨r, _, hd, hsupply, (step_of_decode_ok hfetches hd).trans (exec_inp_of_cons r rfl)⟩

end Sys2Proof.Machine
end

section
/-! The data and stack instructions `set`, `push` and `pop` (42_data_stack.md R92 to R94), each with its encoding, its
action and its faults. -/

namespace Sys2Proof.Machine

variable {s : State}

/-! ### The actions -/

theorem exec_set_reg (r : Reg) (b : Operand) (s : State) :
    exec (.set (.reg r) b) s = .next ((s.writeReg r (s.val b)).advance 2) := rfl

theorem refusesLiteralTarget_set (b : Operand) : RefusesLiteralTarget (.set · b) := fun _ _ => rfl

/-- A full stack refuses the value, which the fault reports (R93). -/
theorem exec_push_of_full (a : Operand) (h : s.stackFull = true) :
    exec (.push a) s = .next (s.raise .stackOverflow (s.val a)) := by
  simp only [exec, execPush, h, if_true]

/-- A literal destination is refused whatever the stack holds (R79). -/
theorem refusesLiteralTarget_pop : RefusesLiteralTarget .pop := fun _ _ => rfl

theorem exec_pop_of_empty (r : Reg) (h : s.stack = []) :
    exec (.pop (.reg r)) s = .next (s.raise .stackUnderflow 0#16) := by
  simp only [exec, execPop, withDest_reg, State.top, h, List.getLast?_nil]

/-- `pop` takes the tail entry `v` off the stack `q ++ [v]` (R28, R94). -/
theorem exec_pop_of_concat (r : Reg) {q : List Word} {v : Word} (h : s.stack = q ++ [v]) :
    exec (.pop (.reg r)) s = .next { s with stack := q, regs := s.regs.set r v, pc := s.pc + 2#16 } := by
  have htop : s.stack.getLast? = some v := by rw [h, List.getLast?_concat]
  have hrest : s.stack.dropLast = q := by rw [h, List.dropLast_concat]
  rw [exec_pop_of_top r htop, ← hrest]
  rfl

/-! ### The instructions -/

/-- Settles O2: the faults are those of every row of the table. -/
theorem setCopiesValue : Obligations.SetCopiesValue :=
  ⟨fun a b => encodes_encode (.set a b), exec_set_reg, refusesLiteralTarget_set,
    operandChecksForEveryOpcode 1#16 _ rfl⟩

/-- Settles O3: the stack is full exactly at depth STACK_CAPACITY, which decides between the push and the fault. -/
theorem pushAppendsValue : Obligations.PushAppendsValue :=
  ⟨fun a => encodes_encode (.push a), fun a _ hroom => exec_push_of_room a (State.stackFull_eq_false hroom),
    fun a s hfull => exec_push_of_full a ((State.stackFull_iff s).mpr hfull),
    operandChecksForEveryOpcode 2#16 _ rfl⟩

/-- Settles O4: the stack decides between the take and the underflow, once the destination is a register. -/
theorem popTakesTopOrUnderflows : Obligations.PopTakesTopOrUnderflows :=
  ⟨fun a => encodes_encode (.pop a), fun r _ _ _ hstack => exec_pop_of_concat r hstack,
    fun r _ hempty => exec_pop_of_empty r hempty, refusesLiteralTarget_pop,
    operandChecksForEveryOpcode 3#16 _ rfl⟩

end Sys2Proof.Machine
end

section
/-! The comparison instructions `eq` and `gt` (43_compare.md R95, R96), each with its encoding, its action and its
faults. -/

namespace Sys2Proof.Machine

/-! ### The truth value written -/

theorem truthWord_decide (p : Prop) [Decidable p] : truthWord (decide p) = if p then 1#16 else 0#16 := by
  by_cases h : p <;> simp [truthWord, h]

/-- The comparison of words is that of their 16-bit naturals, with no reduction (R95). -/
theorem truthWord_beq (v w : Word) : truthWord (v == w) = if v.toNat = w.toNat then 1#16 else 0#16 := by
  rw [← truthWord_decide, decide_eq_decide.mpr BitVec.toNat_inj]
  rfl

/-! ### The actions -/

theorem exec_eq_reg (r : Reg) (b c : Operand) (s : State) :
    exec (.eq (.reg r) b c) s =
      .next ((s.writeReg r (if (s.val b).toNat = (s.val c).toNat then 1#16 else 0#16)).advance 3) := by
  rw [← truthWord_beq]
  rfl

theorem refusesLiteralTarget_eq (b c : Operand) : RefusesLiteralTarget (.eq · b c) := fun _ _ => rfl

theorem exec_gt_reg (r : Reg) (b c : Operand) (s : State) :
    exec (.gt (.reg r) b c) s =
      .next ((s.writeReg r (if (s.val c).toNat < (s.val b).toNat then 1#16 else 0#16)).advance 3) := by
  rw [← truthWord_decide]
  rfl

theorem refusesLiteralTarget_gt (b c : Operand) : RefusesLiteralTarget (.gt · b c) := fun _ _ => rfl

/-! ### The instructions -/

/-- Settles O5: the faults are those of every row of the table. -/
theorem eqWritesEquality : Obligations.EqWritesEquality :=
  ⟨fun a b c => encodes_encode (.eq a b c), exec_eq_reg, refusesLiteralTarget_eq,
    operandChecksForEveryOpcode 4#16 _ rfl⟩

/-- Settles O6: the faults are those of every row of the table. -/
theorem gtWritesStrictOrder : Obligations.GtWritesStrictOrder :=
  ⟨fun a b c => encodes_encode (.gt a b c), exec_gt_reg, refusesLiteralTarget_gt,
    operandChecksForEveryOpcode 5#16 _ rfl⟩

end Sys2Proof.Machine
end

section
/-! The control transfers `jmp`, `jt`, `jf`, `call` and `ret` (44_branch.md R97 to R101), each with its encoding, its
action and its faults, and the call/return law (R102). -/

namespace Sys2Proof.Machine

variable {s t : State} {q : List Word} {v : Word}

/-! ### The actions -/

theorem exec_jmp (a : Operand) (s : State) : exec (.jmp a) s = .next (s.setPc (s.val a)) := rfl

/-- The fall-through of `jt` and `jf` is pc + 3; only the value 0 is false (R98). -/
theorem exec_jt (a b : Operand) (s : State) :
    exec (.jt a b) s = .next (s.setPc (if (s.val a).toNat ≠ 0 then s.val b else s.pc + 3#16)) := by
  simp only [exec, execJt, isZero_iff, ne_eq, ite_not]
  split <;> rfl

/-- The branches of `jf` are those of `jt` exchanged (R99). -/
theorem exec_jf (a b : Operand) (s : State) :
    exec (.jf a b) s = .next (s.setPc (if (s.val a).toNat = 0 then s.val b else s.pc + 3#16)) := by
  simp only [exec, execJf, isZero_iff]
  split <;> rfl

/-- The target is read from the state before the push (R100). -/
theorem exec_call_of_room (a : Operand) (h : s.stackFull = false) :
    exec (.call a) s = .next ((s.push (s.nextPc 1)).setPc (s.val a)) := by
  simp only [exec, execCall, h, Bool.false_eq_true, if_false]

/-- A full stack refuses the return address, which the fault reports (R100). -/
theorem exec_call_of_full (a : Operand) (h : s.stackFull = true) :
    exec (.call a) s = .next (s.raise .stackOverflow (s.nextPc 1)) := by
  simp only [exec, execCall, h, if_true]

theorem exec_ret_of_empty (h : s.stack = []) : exec .ret s = .next ((s.advance 0).halt .haltedRetEmpty) := by
  simp only [exec, execRet, State.top, h, List.getLast?_nil]

/-- `ret` takes the tail entry `v` off the stack `q ++ [v]` and goes there (R28, R101). -/
theorem exec_ret_of_concat (h : s.stack = q ++ [v]) : exec .ret s = .next { s with stack := q, pc := v } := by
  simp only [exec, execRet, State.top, State.dropTop, State.setPc, h, List.getLast?_concat, List.dropLast_concat]

/-! ### The instructions -/

/-- Settles O7: the target is not checked by `jmp`, but by the runoff check of the step after it. -/
theorem jmpGoesToValue : Obligations.JmpGoesToValue :=
  ⟨fun a => encodes_encode (.jmp a), exec_jmp,
    fun a s hs htarget => step_of_runoff (s := s.setPc (s.val a)) hs htarget,
    operandChecksForEveryOpcode 6#16 _ rfl⟩

/-- Settles O8: both operands are checked before the condition is read, as in every row of the table. -/
theorem jtJumpsOnNonZero : Obligations.JtJumpsOnNonZero :=
  ⟨fun a b => encodes_encode (.jt a b), exec_jt, operandChecksForEveryOpcode 7#16 _ rfl⟩

/-- Settles O9: both operands are checked before the condition is read, as in every row of the table. -/
theorem jfJumpsOnZero : Obligations.JfJumpsOnZero :=
  ⟨fun a b => encodes_encode (.jf a b), exec_jf, operandChecksForEveryOpcode 8#16 _ rfl⟩

/-- Settles O18: the stack is full exactly at depth STACK_CAPACITY, which decides between the push and the fault. -/
theorem callPushesReturnAddress : Obligations.CallPushesReturnAddress :=
  ⟨fun a => encodes_encode (.call a), fun a _ hroom => exec_call_of_room a (State.stackFull_eq_false hroom),
    fun a s hfull => exec_call_of_full a ((State.stackFull_iff s).mpr hfull),
    operandChecksForEveryOpcode 17#16 _ rfl⟩

/-- Settles O19: the stack decides between the return and the clean halt. -/
theorem retPopsPcOrHalts : Obligations.RetPopsPcOrHalts :=
  ⟨encodes_encode .ret, fun _ _ _ hstack => exec_ret_of_concat hstack, fun _ hempty => exec_ret_of_empty hempty⟩

/-! ### The call/return law -/

/-- A call with room leaves its return address on top of the stack (R100). -/
theorem stack_of_exec_call {a : Operand} (hroom : s.stackFull = false) (h : exec (.call a) s = .next t) :
    t.stack = s.stack ++ [s.pc + 2#16] := by
  rw [exec_call_of_room a hroom] at h
  cases h
  rfl

/-- Settles O57: the entry that `ret` pops is the return address the call pushed. -/
theorem retResumesAfterCall : Obligations.RetResumesAfterCall :=
  fun _ _ _ _ hroom hcall hstack =>
    exec_ret_of_concat (hstack.trans (stack_of_exec_call (State.stackFull_eq_false hroom) hcall))

end Sys2Proof.Machine
end

section
/-! The instructions of the ALU, `add`, `mult`, `mod`, `and`, `or` and `not` (45_alu.md R103 to R110), each with its
encoding, its action and its faults, and the range of their results. -/

namespace Sys2Proof.Machine

variable {s : State} {c : Operand}

/-! ### The 15-bit complement -/

/-- Masking with `0x7FFF` is the reduction modulo 2 ^ 15, which turns the 16-bit complement into the 15-bit one
(R15, R109). -/
theorem toNat_not_and_mask (v : Word) : (~~~v &&& 0x7FFF#16).toNat = 32767 - v.toNat % 32768 := by
  have hmask : (~~~v &&& 0x7FFF#16).toNat = (~~~v).toNat % 2 ^ 15 :=
    Nat.and_two_pow_sub_one_eq_mod (~~~v).toNat 15
  rw [hmask, BitVec.toNat_not]
  omega

theorem aluNot_eq (v : Word) : aluNot v = ~~~v &&& 0x7FFF#16 := by
  rw [aluNot, valueModulus_eq, ← toNat_not_and_mask, BitVec.ofNat_toNat, BitVec.setWidth_eq]

/-! ### The actions -/

theorem exec_add_reg (r : Reg) (b c : Operand) (s : State) :
    exec (.add (.reg r) b c) s =
      .next ((s.writeReg r (reduce ((s.val b).toNat + (s.val c).toNat))).advance 3) := rfl

theorem refusesLiteralTarget_add (b c : Operand) : RefusesLiteralTarget (.add · b c) := fun _ _ => rfl

theorem exec_mult_reg (r : Reg) (b c : Operand) (s : State) :
    exec (.mult (.reg r) b c) s =
      .next ((s.writeReg r (reduce ((s.val b).toNat * (s.val c).toNat))).advance 3) := rfl

theorem refusesLiteralTarget_mult (b c : Operand) : RefusesLiteralTarget (.mult · b c) := fun _ _ => rfl

/-- The division, once the divisor is not 0 (R106). -/
theorem exec_mod_reg_of_ne_zero (r : Reg) (b : Operand) (h : (s.val c).toNat ≠ 0) :
    exec (.mod (.reg r) b c) s =
      .next ((s.writeReg r (reduce ((s.val b).toNat % (s.val c).toNat))).advance 3) :=
  if_neg fun hzero => h (congrArg BitVec.toNat hzero)

/-- The divisor 0 is refused with the dividend in the fault record (R106). -/
theorem exec_mod_reg_of_eq_zero (r : Reg) (b : Operand) (h : (s.val c).toNat = 0) :
    exec (.mod (.reg r) b c) s = .next (s.raise .divideByZero (s.val b)) :=
  if_pos (BitVec.eq_of_toNat_eq h)

/-- A literal destination is refused whatever the divisor is (R79). -/
theorem refusesLiteralTarget_mod (b c : Operand) : RefusesLiteralTarget (.mod · b c) := fun _ _ => rfl

theorem exec_and_reg (r : Reg) (b c : Operand) (s : State) :
    exec (.and (.reg r) b c) s =
      .next ((s.writeReg r (reduce ((s.val b).toNat &&& (s.val c).toNat))).advance 3) := rfl

theorem refusesLiteralTarget_and (b c : Operand) : RefusesLiteralTarget (.and · b c) := fun _ _ => rfl

theorem exec_or_reg (r : Reg) (b c : Operand) (s : State) :
    exec (.or (.reg r) b c) s =
      .next ((s.writeReg r (reduce ((s.val b).toNat ||| (s.val c).toNat))).advance 3) := rfl

theorem refusesLiteralTarget_or (b c : Operand) : RefusesLiteralTarget (.or · b c) := fun _ _ => rfl

theorem exec_not_reg (r : Reg) (b : Operand) (s : State) :
    exec (.not (.reg r) b) s = .next ((s.writeReg r (~~~(s.val b) &&& 0x7FFF#16)).advance 2) := by
  rw [← aluNot_eq]
  rfl

theorem refusesLiteralTarget_not (b : Operand) : RefusesLiteralTarget (.not · b) := fun _ _ => rfl

/-! ### The instructions -/

/-- Settles O10: the faults are those of every row of the table. -/
theorem addWritesSumMod32768 : Obligations.AddWritesSumMod32768 :=
  ⟨fun a b c => encodes_encode (.add a b c), exec_add_reg, refusesLiteralTarget_add,
    operandChecksForEveryOpcode 9#16 _ rfl⟩

/-- Settles O11: the faults are those of every row of the table. -/
theorem multWritesProductMod32768 : Obligations.MultWritesProductMod32768 :=
  ⟨fun a b c => encodes_encode (.mult a b c), exec_mult_reg, refusesLiteralTarget_mult,
    operandChecksForEveryOpcode 10#16 _ rfl⟩

/-- Settles O12: the divisor decides between the remainder and the fault, once the destination is a register. -/
theorem modWritesRemainderOrDividesByZero : Obligations.ModWritesRemainderOrDividesByZero :=
  ⟨fun a b c => encodes_encode (.mod a b c), fun r b _ _ hne => exec_mod_reg_of_ne_zero r b hne,
    fun r b _ _ hzero => exec_mod_reg_of_eq_zero r b hzero, refusesLiteralTarget_mod,
    operandChecksForEveryOpcode 11#16 _ rfl⟩

/-- Settles O13: the faults are those of every row of the table. -/
theorem andWritesConjunction : Obligations.AndWritesConjunction :=
  ⟨fun a b c => encodes_encode (.and a b c), exec_and_reg, refusesLiteralTarget_and,
    operandChecksForEveryOpcode 12#16 _ rfl⟩

/-- Settles O14: the faults are those of every row of the table. -/
theorem orWritesDisjunction : Obligations.OrWritesDisjunction :=
  ⟨fun a b c => encodes_encode (.or a b c), exec_or_reg, refusesLiteralTarget_or,
    operandChecksForEveryOpcode 13#16 _ rfl⟩

/-- Settles O15: the model's subtraction and the masked complement are one value. -/
theorem notWritesComplement : Obligations.NotWritesComplement :=
  ⟨fun a b => encodes_encode (.not a b), exec_not_reg, toNat_not_and_mask, refusesLiteralTarget_not,
    operandChecksForEveryOpcode 14#16 _ rfl⟩

/-! ### The range of the results -/

/-- Settles O40: what is written is reduced, or a 15-bit complement, and the `mod` that writes nothing has faulted. -/
theorem aluResultsAreBelow32768 : Obligations.AluResultsAreBelow32768 := by
  intro i r b c s t hi hexec _ hrun
  have hreduced {n k : Nat} (h : writeDest (.reg r) n (reduce k) s = .next t) : (t.readReg r).toNat ≤ 32767 :=
    Nat.le_of_not_lt (not_wide_of_writeDest h (reduce_toNat_le k))
  obtain rfl | rfl | rfl | rfl | rfl | rfl := hi
  · exact hreduced hexec
  · exact hreduced hexec
  · by_cases hzero : (s.val c).toNat = 0
    · rw [exec_mod_reg_of_eq_zero r b hzero] at hexec
      cases hexec
      cases hrun
    · rw [exec_mod_reg_of_ne_zero r b hzero] at hexec
      exact hreduced hexec
  · exact hreduced hexec
  · exact hreduced hexec
  · exact Nat.le_of_not_lt (not_wide_of_writeDest hexec (aluNot_toNat_le _))

end Sys2Proof.Machine
end

section
/-! The memory access instructions `rmem` and `wmem` (46_memory_access.md R111, R112), each with its encoding, its
action and its faults. -/

namespace Sys2Proof.Machine

variable {s : State} {w : Word} {f : Nat → Result}

/-! ### The range check of a data address (20_memory.md R44) -/

theorem withAddr_of_lt (h : w.toNat < 32768) : withAddr w s f = f w.toNat :=
  if_neg (Nat.not_le_of_gt h)

theorem withAddr_of_le (h : 32768 ≤ w.toNat) :
    withAddr w s f = .next (s.raise .memoryAddressOutOfRange w) :=
  if_pos h

/-! ### The actions -/

theorem exec_rmem_reg (r : Reg) (b : Operand) (s : State) : exec (.rmem (.reg r) b) s =
    withAddr (s.val b) s fun addr => .next ((s.writeReg r (s.readMem addr)).advance 2) := rfl

theorem exec_rmem_reg_of_lt (r : Reg) {b : Operand} (h : (s.val b).toNat < 32768) :
    exec (.rmem (.reg r) b) s = .next ((s.writeReg r (s.readMem (s.val b).toNat)).advance 2) :=
  (exec_rmem_reg r b s).trans (withAddr_of_lt h)

theorem exec_rmem_reg_of_le (r : Reg) {b : Operand} (h : 32768 ≤ (s.val b).toNat) :
    exec (.rmem (.reg r) b) s = .next (s.raise .memoryAddressOutOfRange (s.val b)) :=
  (exec_rmem_reg r b s).trans (withAddr_of_le h)

/-- A literal destination is refused whatever the address is (R79). -/
theorem refusesLiteralTarget_rmem (b : Operand) : RefusesLiteralTarget (.rmem · b) := fun _ _ => rfl

theorem exec_wmem (a b : Operand) (s : State) : exec (.wmem a b) s =
    withAddr (s.val a) s fun addr => .next ((s.writeMem addr (s.val b)).advance 2) := rfl

theorem exec_wmem_of_lt {a : Operand} (b : Operand) (h : (s.val a).toNat < 32768) :
    exec (.wmem a b) s = .next ((s.writeMem (s.val a).toNat (s.val b)).advance 2) :=
  (exec_wmem a b s).trans (withAddr_of_lt h)

theorem exec_wmem_of_le {a : Operand} (b : Operand) (h : 32768 ≤ (s.val a).toNat) :
    exec (.wmem a b) s = .next (s.raise .memoryAddressOutOfRange (s.val a)) :=
  (exec_wmem a b s).trans (withAddr_of_le h)

/-! ### The instructions -/

/-- Settles O16: the address decides between the read and the fault, once the destination is a register. -/
theorem rmemReadsWordOrFaults : Obligations.RmemReadsWordOrFaults :=
  ⟨fun a b => encodes_encode (.rmem a b), fun r _ _ hlt => exec_rmem_reg_of_lt r hlt,
    fun r _ _ hle => exec_rmem_reg_of_le r hle, refusesLiteralTarget_rmem,
    operandChecksForEveryOpcode 15#16 _ rfl⟩

/-- Settles O17: the memory after is the one with the stored word, which reads as before at every other address. -/
theorem wmemWritesWordOrFaults : Obligations.WmemWritesWordOrFaults := by
  refine ⟨fun a b => encodes_encode (.wmem a b), fun a b s hlt => ?_, fun a b s hle => exec_wmem_of_le b hle,
    operandChecksForEveryOpcode 16#16 _ rfl⟩
  refine ⟨s.mem.write (s.val a).toNat (s.val b), exec_wmem_of_lt b hlt, fun x => ?_⟩
  exact (Memory.read_write s.mem _ (s.val b) x).trans (if_congr eq_comm rfl rfl)

end Sys2Proof.Machine
end

section
/-! The host's actions between two steps (60_exceptions.md R121, R124 to R126): input supply, stop request, snapshot and
restore. -/

namespace Sys2Proof.Machine

variable {s : State}

/-! ### Stop request -/

/-- A stop request takes nothing from the input queue and adds nothing to it (R121, R124). -/
theorem requestStop_inq (s : State) : (requestStop s).inq = s.inq := by
  cases hlive : s.status.isLive with
  | true => rw [requestStop_of_live hlive]; rfl
  | false => rw [requestStop_of_terminal hlive]

theorem requestStop_isLive (s : State) : (requestStop s).status.isLive = false := by
  cases hlive : s.status.isLive with
  | true => rw [requestStop_of_live hlive]; rfl
  | false => rwa [requestStop_of_terminal hlive]

/-- No step follows a stop request: the CORE was terminal or is now STOPPED (R84, R124). -/
theorem step_requestStop_ne_next (s t : State) : step (requestStop s) ≠ .next t := fun hstep =>
  (Status.isLive_eq_false_iff.mp (requestStop_isLive s)).1 (step_cases hstep).1

/-- Settles O53: the request is decided by whether the status is live. -/
theorem stopActsOnLiveCoresOnly : Obligations.StopActsOnLiveCoresOnly :=
  fun s => ⟨fun hlive => requestStop_of_live (Status.isLive_eq_true_iff.mpr hlive),
    fun hrun hwait => requestStop_of_terminal (Status.isLive_eq_false_iff.mpr ⟨hrun, hwait⟩),
    step_requestStop_ne_next s⟩

/-! ### Input supply -/

/-- Settles O51: a supply with a next state is one of a non-empty sequence to a CORE that waits. -/
theorem supplyAppendsAndResumes : Obligations.SupplyAppendsAndResumes := by
  refine fun codes s => ⟨fun hs hne => ?_, fun t h => ?_, requestStop_inq s⟩
  · obtain ⟨c, cs, rfl⟩ := List.exists_cons_of_ne_nil hne
    exact supplyInput_of_waiting hs c cs
  · obtain ⟨hs, hne, -⟩ := supplyInput_cases h
    exact ⟨hs, hne⟩

/-! ### Snapshot and restore -/

/-- The record of a STOPPED CORE holds its five fields (R125). -/
theorem snapshot_of_stopped (hs : s.status = .stopped) :
    snapshot s = some { mem := s.mem, regs := s.regs, stack := s.stack, pc := s.pc, inq := s.inq } :=
  if_pos hs

theorem snapshot_of_ne_stopped (hs : s.status ≠ .stopped) : snapshot s = none :=
  if_neg hs

/-- Settles O55: each of the five fields is copied into the record and back. -/
theorem restoreOfSnapshotIsTheMachine : Obligations.RestoreOfSnapshotIsTheMachine :=
  fun _ _ => ⟨snapshot_of_ne_stopped, fun hs =>
    ⟨_, snapshot_of_stopped hs, rfl, rfl, rfl, rfl, rfl, rfl, rfl⟩⟩

end Sys2Proof.Machine
end
